-- ==== Sys2Proof/Word.lean ====
section
/-! DEFINITION. The quantities of the block (00_scope.md R79, R4, R5): every one is an unsigned bit vector, or a
finite sequence of them with item 0 first. -/

namespace Sys2Proof

/-- A bit vector of width 16: a command word, the CRC register, one word of the bit-reversal unit (R32, R8, R9). -/
abbrev Word := BitVec 16

/-- One item of a message (R4, `BYTE_BITS`). -/
abbrev Byte := BitVec 8

/-- One hexadecimal character's value, 0 to 15 (R5, `DIGIT_BITS`). -/
abbrev Digit := BitVec 4

/-- A bit sequence, item 0 first (R79, section 6.2); `true` is the bit 1. -/
abbrev BitSeq := List Bool

end Sys2Proof
end

