-- ==== Sys2Proof/Syntax.lean ====
section
/-! DEFINITION. The six commands (30_encoding.md R34, opcode_table.json), one constructor per row. The operands are typed
by their widths (R33), so an operand out of range cannot be written. -/

namespace Sys2Proof

inductive Instr where
  /-- `CRC_INIT`: start a new message (R43). -/
  | crcInit
  /-- `CRC_BYTE imm8`: add one byte to the message (R44). -/
  | crcByte (imm8 : Byte)
  /-- `CRC_READ`: return the CRC of the message so far (R45). -/
  | crcRead
  /-- `RV_CLEAR`: start a new string (R53). -/
  | rvClear
  /-- `RV_DIGIT imm4`: add one hexadecimal character to the string (R54). -/
  | rvDigit (imm4 : Digit)
  /-- `RV_READ`: return the reversed bit string of the digits so far (R55). -/
  | rvRead
  deriving DecidableEq, Repr

end Sys2Proof
end

