-- ==== Sys2Proof/Machine/Operands.lean ====
section
/-! DEFINITION. The fields of a command word, the two operand forms, and how an operand enters a 16-bit computation
(30_encoding.md R32, R33; 40_crc.md R42; 41_bitrev.md R54). -/

namespace Sys2Proof.Machine

/-- `op = w[15:12]` (R32). -/
def opField (w : Word) : BitVec 4 := w.extractLsb' 12 4

/-- `rsv = w[11:8]` (R32). -/
def rsvField (w : Word) : BitVec 4 := w.extractLsb' 8 4

/-- `opd = w[7:0]` (R32). -/
def opdField (w : Word) : Byte := w.extractLsb' 0 8

/-- `opd[7:4]`, which is 0 in a legal `RV_DIGIT` word (R32, R33). -/
def opdHigh (w : Word) : BitVec 4 := w.extractLsb' 4 4

/-- `imm8 = w[7:0]`, the message byte of `CRC_BYTE`, unsigned (R33). -/
def imm8 (w : Word) : Byte := opdField w

/-- `imm4 = w[3:0]`, the digit of `RV_DIGIT`, unsigned (R33). -/
def imm4 (w : Word) : Digit := w.extractLsb' 0 4

/-- `{b, 0x00} = zext_16(b) << 8`: the byte in bits 15 to 8, zeros below (R42). -/
def byteHigh (b : Byte) : Word := b.setWidth 16 <<< 8

/-- `zext_16(imm4)` (R54). -/
def digitWord (d : Digit) : Word := d.setWidth 16

end Sys2Proof.Machine
end

