-- ==== Sys2Proof/WellFormed.lean ====
section
/-! DEFINITION. The checks a command word must pass to be legal (30_encoding.md R32, R35) and the range checks of the
assembler's operands (R38). A term of `Instr` needs none: its operands are typed by width (R33). -/

namespace Sys2Proof

/-- The opcode is one of 0x1 to 0x6; 0x0 and 0x7 to 0xF are free for a later version (R35). -/
def opcodeAssigned (w : Word) : Bool := 1 ≤ (Machine.opField w).toNat && (Machine.opField w).toNat ≤ 6

/-- `rsv` must be 0b0000 (R32). -/
def reservedZero (w : Word) : Bool := Machine.rsvField w == 0

/-- The operand field is a byte for `CRC_BYTE`, has `opd[7:4] = 0` for `RV_DIGIT`, and is 0x00 for the other commands (R32). -/
def operandFits (w : Word) : Bool :=
  if Machine.opField w = 0x2 then true
  else if Machine.opField w = 0x5 then Machine.opdHigh w == 0
  else Machine.opdField w == 0

/-- A legal command word (R35): all three checks pass. -/
def legalWord (w : Word) : Bool := opcodeAssigned w && reservedZero w && operandFits w

/-- The assembler's operand of `CRC_BYTE`: 0 to 255 (R38). -/
def byteOperandFits (n : Nat) : Bool := n ≤ 255

/-- The assembler's operand of `RV_DIGIT`: 0 to 15 (R38). -/
def digitOperandFits (n : Nat) : Bool := n ≤ 15

/-- The operand of the pseudo-instruction `RV_WORD`: 0 to 0xFFFF (R39). -/
def wordOperandFits (n : Nat) : Bool := n ≤ 0xFFFF

end Sys2Proof
end

