-- ==== Sys2Proof/Decode.lean ====
section
/-! DEFINITION. The decoder (30_encoding.md R34), total on the 65536 words, the encoder, which is its inverse on legal
words, and the opcode map as mask and match values. -/

namespace Sys2Proof

/-- Why a word is illegal (R35). The block records only the code `ILLEGAL_COMMAND`, whatever the reason (R60). -/
inductive IllegalReason where
  /-- `rsv` is not 0. -/
  | reservedBits
  /-- The opcode is 0x0 or 0x7 to 0xF. -/
  | unassignedOpcode
  /-- The opcode is assigned and its operand field holds what the command does not allow. -/
  | operandBits
  deriving DecidableEq, Repr

/-- What a word decodes to: one of the six commands, or `illegal` (R34). -/
inductive Decoded where
  | command (i : Instr)
  | illegal (reason : IllegalReason)
  deriving DecidableEq, Repr

/-- The decoder of R34, its tests in the order the rule writes them; the last two arms name the reason for `illegal`. -/
def decode (w : Word) : Decoded :=
  if Machine.rsvField w ≠ 0 then .illegal .reservedBits
  else if Machine.opField w = 0x1 ∧ Machine.opdField w = 0x00 then .command .crcInit
  else if Machine.opField w = 0x2 then .command (.crcByte (Machine.imm8 w))
  else if Machine.opField w = 0x3 ∧ Machine.opdField w = 0x00 then .command .crcRead
  else if Machine.opField w = 0x4 ∧ Machine.opdField w = 0x00 then .command .rvClear
  else if Machine.opField w = 0x5 ∧ Machine.opdHigh w = 0 then .command (.rvDigit (Machine.imm4 w))
  else if Machine.opField w = 0x6 ∧ Machine.opdField w = 0x00 then .command .rvRead
  else if opcodeAssigned w then .illegal .operandBits
  else .illegal .unassignedOpcode

/-- The encoder of R34: `0x2000 | b`, `0x5000 | d`, and the match value of the four commands without operand. -/
def encode : Instr → Word
  | .crcInit => 0x1000
  | .crcByte b => 0x2000 ||| b.setWidth 16
  | .crcRead => 0x3000
  | .rvClear => 0x4000
  | .rvDigit d => 0x5000 ||| d.setWidth 16
  | .rvRead => 0x6000

/-- One row of R34's opcode map: a word selects the row when `(w & mask) = pattern`. -/
structure OpcodeRow where
  op : BitVec 4
  pattern : Word
  mask : Word
  deriving DecidableEq, Repr

/-- A word selects a row (R34). -/
def OpcodeRow.selects (r : OpcodeRow) (w : Word) : Bool := w &&& r.mask == r.pattern

/-- The row of R34's table that a command belongs to. -/
def opcodeRow : Instr → OpcodeRow
  | .crcInit => ⟨0x1, 0x1000, 0xFFFF⟩
  | .crcByte _ => ⟨0x2, 0x2000, 0xFF00⟩
  | .crcRead => ⟨0x3, 0x3000, 0xFFFF⟩
  | .rvClear => ⟨0x4, 0x4000, 0xFFFF⟩
  | .rvDigit _ => ⟨0x5, 0x5000, 0xFFF0⟩
  | .rvRead => ⟨0x6, 0x6000, 0xFFFF⟩

/-- R34's table, in its order. -/
def opcodeTable : List OpcodeRow :=
  [opcodeRow .crcInit, opcodeRow (.crcByte 0), opcodeRow .crcRead, opcodeRow .rvClear, opcodeRow (.rvDigit 0),
   opcodeRow .rvRead]

/-- The command word whose low `nbits` bits are those of `w` and whose other bits are 0, numbered as opcode_table.json
numbers them: a command is one word, bit 0 its least significant (R32). -/
def tableWord (nbits w : Nat) : Word := BitVec.ofNat 16 (w % 2 ^ nbits)

/-- What the decoder reads from an opcode-table word. -/
def decodeTableWord (nbits w : Nat) : Option Instr :=
  match decode (tableWord nbits w) with
  | .command i => some i
  | .illegal _ => none

end Sys2Proof
end

