-- ==== Sys2Proof/Config.lean ====
section
/-! DEFINITION. The one open parameter of the hardware (00_scope.md R6; 92_eei_decisions.md D9, OPEN). -/

namespace Sys2Proof

/-- The values the parameter `RV_CAP_WORDS` may take: a natural number of at least 1, or `unbounded` (R6). -/
inductive Capacity where
  | unbounded
  | words (n : Nat) (atLeastOne : 1 ≤ n)
  deriving DecidableEq, Repr, Inhabited

/-- FREE VALUE (log entry 2): the number of words the bit-reversal unit of this block holds. The spec leaves it open (R6),
so the constant has no body and nothing can be proved of which value it is. -/
opaque Config.rvCapWords : Capacity

end Sys2Proof
end

