-- ==== Sys2Proof/Machine/State.lean ====
section
/-! DEFINITION. The state. `Block` is the spec's whole state, exactly the five components of 10_state.md R7; `State` adds
the model's own three fields: the parameter's value, what the host presents, and what it has been answered. -/

namespace Sys2Proof.Machine

/-- The two causes a fault has, the values 1 and 2 of the `fault` register (10_state.md R13, 60_exceptions.md R60).
They are states of the block, not outcomes of the model's step. -/
inductive FaultCause where
  /-- Code 1: a word that is no legal command was presented. -/
  | illegalCommand
  /-- Code 2: an `RV_DIGIT` needed a word beyond `RV_CAP_WORDS`. -/
  | rvOverflow
  deriving DecidableEq, Repr

/-- What a command returns, exactly one per command (30_encoding.md R37). -/
inductive Response where
  | ack
  /-- The document's uint16. -/
  | val16 (v : Word)
  /-- The document's binary string, item 0 delivered first. -/
  | bitseq (s : BitSeq)
  /-- A fault was taken, or the command is refused because of an earlier one. -/
  | err (c : FaultCause)
  deriving DecidableEq, Repr

/-- What the host does at the command port at one moment (70_reset_and_hazards.md R70, R78). -/
inductive HostEvent where
  /-- One command word is presented. -/
  | command (w : Word)
  /-- The reset event. -/
  | reset
  /-- A reset and a command word at the same moment. -/
  | resetWithCommand (w : Word)
  deriving DecidableEq, Repr

/-- The whole state of the block and nothing else (R7). -/
structure Block where
  /-- The checksum engine's register (R8). -/
  crc : Word
  /-- The complete words received, first received first (R9). -/
  rvWords : List Word
  /-- The value of the current word's digits so far (R10). -/
  rvAcc : Word
  /-- The number of digits of the current word so far, 0 to 3 (R10). -/
  rvN : Fin 4
  /-- The sticky status: `none` is NONE (R13; log entry 5). -/
  fault : Option FaultCause
  deriving DecidableEq, Repr

/-- The machine: the block and its surroundings at the command port (log entries 1 and 2). -/
structure State where
  /-- The spec's state. -/
  block : Block
  /-- The value of `RV_CAP_WORDS` for this block (R6); no step changes it. -/
  capacity : Capacity
  /-- What the host presents next, first first (R28, R78). -/
  pending : List HostEvent
  /-- The responses returned, in order (R37, R77). -/
  responses : List Response
  deriving DecidableEq, Repr

/-- Reasons for which the machine stops: there are none. No rule stops the block: a fault of the spec is a next state
(60_exceptions.md R61), and a faulted block still answers every command (70_reset_and_hazards.md R77). Log entry 6. -/
inductive Fault where
  deriving DecidableEq, Repr

/-- Reasons for which an instruction has no meaning in the model. -/
inductive Refusal where
  /-- Raised by an arm of `exec` whose instruction has no meaning yet; safe, since nothing is proved of the hardware through
  it. Every instruction has its meaning, so no arm raises it. -/
  | notModelled (mnemonic : String)
  deriving DecidableEq, Repr

/-- Every component's reset value (R17, R70). -/
def Block.reset : Block where
  crc := 0xFFFF
  rvWords := []
  rvAcc := 0x0000
  rvN := 0
  fault := none

/-- A block of the given capacity right after reset, nothing presented and nothing answered. -/
def State.resetWith (capacity : Capacity) : State where
  block := Block.reset
  capacity := capacity
  pending := []
  responses := []

/-- The machine right after reset (R17); its capacity is the free constant of log entry 2. -/
def State.reset : State := State.resetWith Config.rvCapWords

end Sys2Proof.Machine
end

