-- ==== Sys2Proof/Machine/Flags.lean ====
section
/-! DEFINITION. Conditions and status. The block has no condition codes (10_state.md R12): what it tests is tested inside
one step and not kept. Its only status register is `fault` (R13). -/

namespace Sys2Proof.Machine

/-- The test of bit 15, made before the shift (40_crc.md R41, R47); the bit is not kept. -/
def topBit (r : Word) : Bool := r.getLsbD 15

/-- A buffer of `len` complete words is full: `len` is `RV_CAP_WORDS` (41_bitrev.md R54). It never is when the capacity is
`unbounded`, nor when it is empty, since the capacity is at least 1 (00_scope.md R6). -/
def bufferFull (capacity : Capacity) : Nat → Bool
  | 0 => false
  | k + 1 =>
    match capacity with
    | .unbounded => false
    | .words n _ => k + 1 == n

/-- The condition of `RV_OVERFLOW`: a new word is needed and there is no room (R54, 60_exceptions.md R60). -/
def overflows (capacity : Capacity) (b : Block) : Bool := b.rvN == 0 && bufferFull capacity b.rvWords.length

/-- The code of a cause, as `err(c)` carries it (R13, R60). -/
def causeCode : FaultCause → BitVec 2
  | .illegalCommand => 1
  | .rvOverflow => 2

/-- The `fault` register's two bits (R13); no state holds the value 3. -/
def faultBits (fault : Option FaultCause) : BitVec 2 :=
  match fault with
  | none => 0
  | some c => causeCode c

/-- The response is an `err` (R77). -/
def isErr : Response → Bool
  | .err _ => true
  | _ => false

end Sys2Proof.Machine
end

