-- ==== Sys2Proof/Machine/Ops.lean ====
section
/-! DEFINITION. The named operations over the state: updates of the block's components, taking a fault, the gate every
command passes, running a command, the reset event, and taking what the host presents. -/

namespace Sys2Proof.Machine

/-- Write `crc`. -/
def Block.setCrc (v : Word) (b : Block) : Block := { b with crc := v }

/-- Write the bit-reversal unit's three components. -/
def Block.setBuffer (words : List Word) (acc : Word) (n : Fin 4) (b : Block) : Block :=
  { b with rvWords := words, rvAcc := acc, rvN := n }

/-- Write `fault`. -/
def Block.setFault (f : Option FaultCause) (b : Block) : Block := { b with fault := f }

/-- Replace the block's state, leaving the model's own fields. -/
def State.setBlock (b : Block) (s : State) : State := { s with block := b }

/-- What the host presents from now on. -/
def State.setPending (events : List HostEvent) (s : State) : State := { s with pending := events }

/-- `respond(r)`: one response is returned (00_scope.md section 6.3, 30_encoding.md R37). -/
def State.respond (r : Response) (s : State) : State := { s with responses := s.responses ++ [r] }

/-- TAKING A FAULT (60_exceptions.md R61): `fault <- c`, `respond(err(c))`, every other component kept. Nothing is saved
elsewhere and there is no handler, vector or mode. -/
def takeFault (c : FaultCause) (b : Block) : Block × Response := (b.setFault (some c), .err c)

/-- The first line of every command (60_exceptions.md R62): while `fault` is not NONE the command is refused with
`err(fault)` and nothing changes. -/
def gated (effect : Block → Block × Response) (b : Block) : Block × Response :=
  match b.fault with
  | some c => (b, .err c)
  | none => effect b

/-- One command, whole and atomic (20_memory.md R28): the gate, then the command's own effect, then its one response. -/
def State.runCommand (effect : Block → Block × Response) (s : State) : State :=
  (s.setBlock (gated effect s.block).1).respond (gated effect s.block).2

/-- An illegal word takes `ILLEGAL_COMMAND` (30_encoding.md R35); behind the gate, since R63 tests `fault` first. -/
def State.illegalCommand (s : State) : State := s.runCommand (takeFault .illegalCommand)

/-- The reset event, the only way out of a fault (70_reset_and_hazards.md R70, 60_exceptions.md R62): every component gets
its reset value, and no response is returned. -/
def State.resetEvent (s : State) : State := s.setBlock Block.reset

/-- The first thing the host presents, and the state with it taken from the port; `none` when nothing is presented. -/
def State.takeEvent (s : State) : Option (HostEvent × State) :=
  match s.pending with
  | [] => none
  | e :: rest => some (e, s.setPending rest)

/-- Nothing is presented: the block is idle, which changes no state (60_exceptions.md R68; log entry 4). -/
def State.idle (s : State) : State := s

/-- The host presents a command word before all else that is pending (log entry 3). -/
def State.present (w : Word) (s : State) : State := s.setPending (.command w :: s.pending)

end Sys2Proof.Machine
end

