-- ==== Sys2Proof/Machine/BitRev.lean ====
section
/-! DEFINITION. The bit-reversal unit: the function `flip_bit_order` and its helpers (41_bitrev.md R51, R52), and the
commands `RV_CLEAR`, `RV_DIGIT`, `RV_READ` (R53 to R55). -/

namespace Sys2Proof.Machine

/-- `bits16(w)`: the bit sequence of length 16 whose item `i` is `w[15 - i]` (00_scope.md section 6.2). -/
def bits16 (w : Word) : BitSeq := (List.range 16).map fun i => w.getLsbD (15 - i)

/-- The number a group of digits writes, first digit most significant, at width 16 (R51, R25). -/
def digitsValue (ds : List Digit) : Word := ds.foldl (fun v d => v * 16 + digitWord d) 0

/-- The digits of word `j`: four, or one to three in a last partial word (R51). -/
def digitGroup (h : List Digit) (j : Nat) : List Digit := (h.drop (4 * j)).take 4

/-- The number of words of a string, the last one perhaps partial (R51). -/
def wordCount (h : List Digit) : Nat := (h.length + 3) / 4

/-- The words of a string in order, a last partial one included; a partial word is its digits' number (R51, R59). -/
def stringWords (h : List Digit) : List Word := (List.range (wordCount h)).map fun j => digitsValue (digitGroup h j)

/-- The bit string `S` of R51 before the reversal: the words' bits, concatenated in order. -/
def wordBits (h : List Digit) : BitSeq := (stringWords h).flatMap bits16

/-- `flip_bit_order`, the function of the document (R51): the whole bit string reversed bit for bit. -/
def flipBitOrder (h : List Digit) : BitSeq := (wordBits h).reverse

/-- The four bits of a digit, most significant first (R52). -/
def digitBits (d : Digit) : BitSeq := (List.range 4).map fun t => d.getLsbD (3 - t)

/-- `digits_to_bits` (R52). -/
def digitsToBits (h : List Digit) : BitSeq := h.flatMap digitBits

/-- The digit `8*a + 4*b + 2*c + d` (R52). -/
def bitsDigit (a b c d : Bool) : Digit := BitVec.ofNat 4 (8 * a.toNat + 4 * b.toNat + 2 * c.toNat + d.toNat)

/-- `bits_to_digits` (R52), defined for lengths that are a multiple of 4; `none` for the others (log entry 8). -/
def bitsToDigits : BitSeq → Option (List Digit)
  | [] => some []
  | a :: b :: c :: d :: rest => (bitsToDigits rest).map (bitsDigit a b c d :: ·)
  | [_] => none
  | [_, _] => none
  | [_, _, _] => none

/-- The bits `RV_READ` reverses: the complete words', then the partial word's, zero-padded on the left (R55, R59). -/
def Block.bitString (b : Block) : BitSeq := b.rvWords.flatMap bits16 ++ (if 0 < b.rvN then bits16 b.rvAcc else [])

/-- `RV_CLEAR` behind the gate (R53). -/
def rvClearEffect (b : Block) : Block × Response := (b.setBuffer [] 0x0000 0, .ack)

/-- The accumulator with one more digit: `(rv_acc << 4) | zext_16(imm4)` (R54). -/
def accWith (acc : Word) (imm4 : Digit) : Word := (acc <<< 4) ||| digitWord imm4

/-- `RV_DIGIT imm4` behind the gate, in a block of the given capacity (R54). -/
def rvDigitEffect (capacity : Capacity) (imm4 : Digit) (b : Block) : Block × Response :=
  if overflows capacity b then takeFault .rvOverflow b
  else if b.rvN = 3 then (b.setBuffer (b.rvWords ++ [accWith b.rvAcc imm4]) 0x0000 0, .ack)
  else (b.setBuffer b.rvWords (accWith b.rvAcc imm4) (b.rvN + 1), .ack)

/-- `RV_READ` behind the gate (R55). -/
def rvReadEffect (b : Block) : Block × Response := (b, .bitseq b.bitString.reverse)

/-- `RV_CLEAR` (R53). -/
def execRvClear (s : State) : Host.Outcome State Fault Refusal := .next (s.runCommand rvClearEffect)

/-- `RV_DIGIT imm4` (R54). -/
def execRvDigit (imm4 : Digit) (s : State) : Host.Outcome State Fault Refusal :=
  .next (s.runCommand (rvDigitEffect s.capacity imm4))

/-- `RV_READ` (R55). -/
def execRvRead (s : State) : Host.Outcome State Fault Refusal := .next (s.runCommand rvReadEffect)

end Sys2Proof.Machine
end

