-- ==== Sys2Proof/Machine/Crc.lean ====
section
/-! DEFINITION. The checksum engine: the function `crc16` and the functions it is made of (40_crc.md R40 to R42, R48), and
the commands `CRC_INIT`, `CRC_BYTE`, `CRC_READ` (R43 to R45). -/

namespace Sys2Proof.Machine

/-- `CRC_POLY` (00_scope.md R4). -/
def crcPoly : Word := 0x1021

/-- `CRC_INIT`, the register's value before the first byte (R4). -/
def crcInitValue : Word := 0xFFFF

/-- `CRC_XOROUT`, XORed into the register to give the result (R4). -/
def crcXorOut : Word := 0xFFFF

/-- One shift step: shift left by one at width 16, and XOR with the polynomial when the top bit was set before (R41). -/
def crcShift1 (r : Word) : Word := if topBit r then (r <<< 1) ^^^ crcPoly else r <<< 1

/-- `k` shift steps. -/
def crcShifts : Nat → Word → Word
  | 0, t => t
  | k + 1, t => crcShifts k (crcShift1 t)

/-- The update for one byte: XOR the byte into bits 15 to 8, then exactly eight shift steps (R42). -/
def crcByte (r : Word) (b : Byte) : Word := crcShifts 8 (r ^^^ byteHigh b)

/-- The register after the bytes of `data`, started from `r`, item 0 first (R40, R23). -/
def crcBytes (r : Word) (data : List Byte) : Word := data.foldl crcByte r

/-- `crc16`, the function of the document (R40). -/
def crc16 (data : List Byte) : Word := crcBytes crcInitValue data ^^^ crcXorOut

/-- One step of the bit-serial form, for bit `k` of the byte (R48 (a)). -/
def crcSerialStep (b : Byte) (r : Word) (k : Nat) : Word :=
  (r <<< 1) ^^^ (if topBit r ^^ b.getLsbD k then crcPoly else 0x0000)

/-- The bit-serial form, the byte's bits entering most significant first (R48 (a)). -/
def crcByteSerial (r : Word) (b : Byte) : Word := [7, 6, 5, 4, 3, 2, 1, 0].foldl (crcSerialStep b) r

/-- The constant table `T[i] = crc_byte(0x0000, i)` of R48 (b). -/
def crcTable (i : Byte) : Word := crcByte 0x0000 i

/-- The table form (R48 (b)). -/
def crcByteTable (r : Word) (b : Byte) : Word := (r <<< 8) ^^^ crcTable (r.extractLsb' 8 8 ^^^ b)

/-- `CRC_INIT` behind the gate (R43). -/
def crcInitEffect (b : Block) : Block × Response := (b.setCrc crcInitValue, .ack)

/-- `CRC_BYTE imm8` behind the gate (R44). -/
def crcByteEffect (imm8 : Byte) (b : Block) : Block × Response := (b.setCrc (crcByte b.crc imm8), .ack)

/-- `CRC_READ` behind the gate (R45): the XOR is applied to the response only. -/
def crcReadEffect (b : Block) : Block × Response := (b, .val16 (b.crc ^^^ crcXorOut))

/-- `CRC_INIT` (R43). -/
def execCrcInit (s : State) : Host.Outcome State Fault Refusal := .next (s.runCommand crcInitEffect)

/-- `CRC_BYTE imm8` (R44). -/
def execCrcByte (imm8 : Byte) (s : State) : Host.Outcome State Fault Refusal := .next (s.runCommand (crcByteEffect imm8))

/-- `CRC_READ` (R45). -/
def execCrcRead (s : State) : Host.Outcome State Fault Refusal := .next (s.runCommand crcReadEffect)

end Sys2Proof.Machine
end

