-- ==== Sys2Proof/Machine/Dispatch.lean ====
section
/-! DEFINITION. One arm per command, each a direct call of its meaning. -/

namespace Sys2Proof.Machine

def exec (i : Instr) (s : State) : Host.Outcome State Fault Refusal :=
  match i with
  | .crcInit => Sys2Proof.Machine.execCrcInit s
  | .crcByte imm8 => Sys2Proof.Machine.execCrcByte imm8 s
  | .crcRead => Sys2Proof.Machine.execCrcRead s
  | .rvClear => Sys2Proof.Machine.execRvClear s
  | .rvDigit imm4 => Sys2Proof.Machine.execRvDigit imm4 s
  | .rvRead => Sys2Proof.Machine.execRvRead s

end Sys2Proof.Machine
end

