-- ==== Sys2Proof/Machine/Step.lean ====
section
/-! DEFINITION. One step: the block takes what the host presents first. A command word is decoded as it is presented
(20_memory.md R30, 30_encoding.md R36) and run or refused; a reset wins over a command presented with it
(70_reset_and_hazards.md R70); with nothing presented the block is idle (60_exceptions.md R68). -/

namespace Sys2Proof.Machine

def step (s : State) : Host.Outcome State Fault Refusal :=
  match s.takeEvent with
  | none => .next s.idle
  | some (.reset, t) => .next t.resetEvent
  | some (.resetWithCommand _, t) => .next t.resetEvent
  | some (.command w, t) =>
    match decode w with
    | .command i => exec i t
    | .illegal _ => .next t.illegalCommand

/-- The host presents next the command word whose low `nbits` bits are those of `w` (log entry 3). -/
def State.withFetchWord (s : State) (nbits w : Nat) : State := s.present (tableWord nbits w)

end Sys2Proof.Machine
end

