-- ==== Sys2Proof/Machine/Assembler.lean ====
section
/-! DEFINITION. The pseudo-instructions (30_encoding.md R39) and the assembler's syntax (R38): how the document's two
functions, and programs as text, become lists of commands and of command words. None of it is part of the block. -/

namespace Sys2Proof.Machine

/-- `CRC_BYTES` (R39): one `CRC_BYTE` per byte, in order. -/
def crcBytesProgram (data : List Byte) : List Instr := data.map .crcByte

/-- `CRC16` (R39): `CRC_INIT`, the bytes, `CRC_READ`. -/
def crc16Program (data : List Byte) : List Instr := .crcInit :: (crcBytesProgram data ++ [.crcRead])

/-- `RV_WORD imm16` (R39): the word's four digits, most significant first. -/
def rvWordProgram (w : Word) : List Instr :=
  [.rvDigit (w.extractLsb' 12 4), .rvDigit (w.extractLsb' 8 4), .rvDigit (w.extractLsb' 4 4), .rvDigit (w.extractLsb' 0 4)]

/-- `FLIP` (R39): `RV_CLEAR`, the digits in order, `RV_READ`. -/
def flipProgram (h : List Digit) : List Instr := .rvClear :: (h.map .rvDigit ++ [.rvRead])

/-- The value of a hexadecimal character; the letters `A` to `F` and `a` to `f` mean the same digit (R38), and any other
character is no digit (92_eei_decisions.md D24). -/
def hexValue (c : Char) : Option Nat :=
  if 48 ≤ c.toNat ∧ c.toNat ≤ 57 then some (c.toNat - 48)
  else if 65 ≤ c.toNat ∧ c.toNat ≤ 70 then some (c.toNat - 55)
  else if 97 ≤ c.toNat ∧ c.toNat ≤ 102 then some (c.toNat - 87)
  else none

/-- The value of a decimal character. -/
def decimalValue (c : Char) : Option Nat := if 48 ≤ c.toNat ∧ c.toNat ≤ 57 then some (c.toNat - 48) else none

/-- The values of all characters, or `none` if one has none. -/
def charValues (value : Char → Option Nat) : List Char → Option (List Nat)
  | [] => some []
  | c :: cs => (value c).bind fun v => (charValues value cs).map (v :: ·)

/-- A hexadecimal string as its digits, first character first (20_memory.md R25). -/
def hexDigits (cs : List Char) : Option (List Digit) := (charValues hexValue cs).map fun vs => vs.map (BitVec.ofNat 4)

/-- Two characters per byte, leftmost pair first, the first of a pair the high nibble (20_memory.md R23, R39); an odd
number of characters makes no bytes. -/
def pairBytes : List Digit → Option (List Byte)
  | [] => some []
  | [_] => none
  | a :: b :: rest => (pairBytes rest).map ((a.setWidth 8 <<< 4 ||| b.setWidth 8) :: ·)

/-- The number that values in a base write, first most significant; the empty list writes none. -/
def numberIn (base : Nat) : List Nat → Option Nat
  | [] => none
  | v :: vs => some ((v :: vs).foldl (fun n d => n * base + d) 0)

/-- An operand: hexadecimal with `0x`, or decimal (R38). -/
def operandNumber : List Char → Option Nat
  | '0' :: 'x' :: cs => (charValues hexValue cs).bind (numberIn 16)
  | cs => (charValues decimalValue cs).bind (numberIn 10)

/-- The characters of a line before its comment (R38). -/
def beforeComment (cs : List Char) : List Char := cs.takeWhile (· != ';')

/-- The pieces of a text between the characters `sep`. -/
def splitAtChar (sep : Char) : List Char → List (List Char)
  | [] => [[]]
  | c :: cs =>
    if c = sep then [] :: splitAtChar sep cs
    else match splitAtChar sep cs with
      | [] => [[c]]
      | piece :: more => (c :: piece) :: more

/-- The words of a line: its pieces between spaces that are not empty (log entry 9). -/
def lineTokens (cs : List Char) : List (List Char) := (splitAtChar ' ' (beforeComment cs)).filter (· ≠ [])

/-- A number that passes the operand's range check; a larger one is an error of the assembler (R38). -/
def checkedOperand (fits : Nat → Bool) (cs : List Char) : Option Nat := (operandNumber cs).filter fits

/-- The commands of a mnemonic or pseudo-instruction without operand; an absent hexadecimal string is the empty one
(log entry 9). -/
def assemblePlain (m : List Char) : Option (List Instr) :=
  if m = "CRC_INIT".toList then some [.crcInit]
  else if m = "CRC_READ".toList then some [.crcRead]
  else if m = "RV_CLEAR".toList then some [.rvClear]
  else if m = "RV_READ".toList then some [.rvRead]
  else if m = "CRC_BYTES".toList then some (crcBytesProgram [])
  else if m = "CRC16".toList then some (crc16Program [])
  else if m = "FLIP".toList then some (flipProgram [])
  else none

/-- The commands of a mnemonic or pseudo-instruction with its operand (R38, R39). -/
def assembleOperand (m operand : List Char) : Option (List Instr) :=
  if m = "CRC_BYTE".toList then (checkedOperand byteOperandFits operand).map fun n => [.crcByte (BitVec.ofNat 8 n)]
  else if m = "RV_DIGIT".toList then (checkedOperand digitOperandFits operand).map fun n => [.rvDigit (BitVec.ofNat 4 n)]
  else if m = "RV_WORD".toList then (checkedOperand wordOperandFits operand).map fun n => rvWordProgram (BitVec.ofNat 16 n)
  else if m = "CRC_BYTES".toList then ((hexDigits operand).bind pairBytes).map crcBytesProgram
  else if m = "CRC16".toList then ((hexDigits operand).bind pairBytes).map crc16Program
  else if m = "FLIP".toList then (hexDigits operand).map flipProgram
  else none

/-- One line (R38): nothing, `MNEMONIC` or `MNEMONIC operand`; `none` is an error of the assembler. -/
def assembleLine (cs : List Char) : Option (List Instr) :=
  match lineTokens cs with
  | [] => some []
  | [m] => assemblePlain m
  | [m, operand] => assembleOperand m operand
  | _ => none

/-- The commands of a list of lines, top to bottom, once (R38). -/
def assembleLines : List (List Char) → Option (List Instr)
  | [] => some []
  | l :: ls => (assembleLine l).bind fun is => (assembleLines ls).map (is ++ ·)

/-- A program's text, its lines ended by line breaks (R38). -/
def assemble (text : List Char) : Option (List Instr) := assembleLines (splitAtChar '\n' text)

/-- The command words of a program (70_reset_and_hazards.md R77). -/
def programWords (p : List Instr) : List Word := p.map encode

end Sys2Proof.Machine
end

