-- ==== Sys2Proof/Machine/Run.lean ====
section
/-! DEFINITION. The step function in the form 30_encoding.md R37 gives it, and runs: what a program's words, and the resets
its description places among them, make of a block and what they are answered (70_reset_and_hazards.md R77). -/

namespace Sys2Proof.Machine

/-- What a command does behind the gate (R43 to R45, R53 to R55). -/
def commandEffect (capacity : Capacity) : Instr → Block → Block × Response
  | .crcInit => crcInitEffect
  | .crcByte imm8 => crcByteEffect imm8
  | .crcRead => crcReadEffect
  | .rvClear => rvClearEffect
  | .rvDigit imm4 => rvDigitEffect capacity imm4
  | .rvRead => rvReadEffect

/-- The step function in the form 30_encoding.md R37 gives it, from a state of the block and a word to the next state and the
response; the parameter is its argument (R6). -/
def commandStep (capacity : Capacity) (b : Block) (w : Word) : Block × Response :=
  gated (match decode w with
    | .command i => commandEffect capacity i
    | .illegal _ => takeFault .illegalCommand) b

/-- The outcome of a run: the final state, and the responses in order (R77). -/
structure RunOutcome where
  final : Block
  responses : List Response
  deriving DecidableEq, Repr

/-- One event of a run: a word is answered once; a reset, with or without a word, answers nothing (R37, R70). -/
def eventOutcome (capacity : Capacity) (b : Block) : HostEvent → RunOutcome
  | .command w => ⟨(commandStep capacity b w).1, [(commandStep capacity b w).2]⟩
  | .reset => ⟨Block.reset, []⟩
  | .resetWithCommand _ => ⟨Block.reset, []⟩

/-- The run of a program from a given start state, first event first, the resets in between included (R77). Where the last
event is a word presented alone, the run ends when that word has been answered. DESIGN CHOICE (log entry 16): a reset after
the last such word, or in a list with no such word, is applied too, though R77 speaks only of resets in between; so `final`
is then the reset state. Unsafe for a claim on `final` or `goneWrong` of such a list. -/
def runProgram (capacity : Capacity) (b : Block) : List HostEvent → RunOutcome
  | [] => ⟨b, []⟩
  | e :: es =>
    ⟨(runProgram capacity (eventOutcome capacity b e).final es).final,
      (eventOutcome capacity b e).responses ++ (runProgram capacity (eventOutcome capacity b e).final es).responses⟩

/-- A run has gone wrong when the final `fault` is not NONE, and also when any response is an `err`, a reset after it
notwithstanding (R77; 92_eei_decisions.md D22; 95_test_vectors.md P6). -/
def goneWrong (o : RunOutcome) : Bool := o.final.fault.isSome || o.responses.any isErr

end Sys2Proof.Machine
end

