-- ==== Sys2Proof/Safety.lean ====
section
/-! DEFINITION. What claims about the block are stated in, beside the runs of Machine/Run.lean: the invariants of reachable
states (10_state.md R18), and what the block's components hold of the message and the string it was given (R8 to R10,
40_crc.md R46, 41_bitrev.md R56). -/

namespace Sys2Proof.Machine

/-- The number of words the buffer needs: the complete ones and a partial one (R18). -/
def wordsHeld (b : Block) : Nat := b.rvWords.length + (if 0 < b.rvN then 1 else 0)

/-- A number of words the capacity has room for (R6). -/
def hasRoom : Capacity → Nat → Bool
  | .unbounded, _ => true
  | .words n _, k => k ≤ n

/-- The invariants of R18 that are not in the types: `rv_acc < 16^rv_n`, and the words held fit the capacity. -/
abbrev BufferInv (s : State) : Prop :=
  s.block.rvAcc.toNat < 16 ^ s.block.rvN.val ∧ hasRoom s.capacity (wordsHeld s.block) = true

/-- The message as the host's event leaves it: `CRC_INIT` and reset start a new one, `CRC_BYTE` adds its byte (R46). -/
def messageAfter (m : List Byte) : HostEvent → List Byte
  | .command w =>
    match decode w with
    | .command .crcInit => []
    | .command (.crcByte b) => m ++ [b]
    | _ => m
  | .reset => []
  | .resetWithCommand _ => []

/-- The string as the host's event leaves it: `RV_CLEAR` and reset start a new one, `RV_DIGIT` adds its digit (R56). -/
def stringAfter (h : List Digit) : HostEvent → List Digit
  | .command w =>
    match decode w with
    | .command .rvClear => []
    | .command (.rvDigit d) => h ++ [d]
    | _ => h
  | .reset => []
  | .resetWithCommand _ => []

/-- `crc` holds the running remainder of the message (R8, R46). -/
abbrev HoldsMessage (b : Block) (m : List Byte) : Prop := b.crc = crcBytes 0xFFFF m

/-- The complete 16-bit words of a string, in order (R9). -/
def completeWords (h : List Digit) : List Word := (List.range (h.length / 4)).map fun j => digitsValue (digitGroup h j)

/-- The bit-reversal unit holds the string: its complete words, the number of digits of the word being assembled, and
their value (R9, R10). -/
abbrev HoldsString (b : Block) (h : List Digit) : Prop :=
  b.rvWords = completeWords h ∧ b.rvN.val = h.length % 4 ∧ b.rvAcc = digitsValue (h.drop (4 * (h.length / 4)))

/-- The commands of the checksum engine (R19). -/
def isCrcCommand : Instr → Bool
  | .crcInit => true
  | .crcByte _ => true
  | .crcRead => true
  | .rvClear => false
  | .rvDigit _ => false
  | .rvRead => false

/-- The words of a program that are executed and answered, in order; a word presented with a reset is neither (R70, R77). -/
def wordsOf : List HostEvent → List Word
  | [] => []
  | .command w :: es => w :: wordsOf es
  | .reset :: es => wordsOf es
  | .resetWithCommand _ :: es => wordsOf es

/-- The bytes that the `CRC_BYTE` commands of a program give, in order. -/
def bytesOf : List Instr → List Byte
  | [] => []
  | .crcByte b :: is => b :: bytesOf is
  | _ :: is => bytesOf is

/-- The digits that the `RV_DIGIT` commands of a program give, in order. -/
def digitsOf : List Instr → List Digit
  | [] => []
  | .rvDigit d :: is => d :: digitsOf is
  | _ :: is => digitsOf is

end Sys2Proof.Machine
end

