-- ==== Sys2Proof/Certificates/Slice0/Obligations.lean ====
section
/-! DEFINITION. The statements for the provers, each formalising or following from the rules of spec/ its docstring
cites. `core.run` presents what is pending one event a step. -/

open Sys2Proof Sys2Proof.Machine

/-! ## Encoding -/

/-- R34: decoding and encoding are inverse to each other, for every word and every command with every operand. -/
def Obligations.DecodeInvertsEncode : Prop :=
  ∀ (w : Word) (i : Instr), decode w = .command i ↔ w = encode i

/-- R34: a word decodes to a command exactly when it selects a row of the opcode map, which is when it passes the checks of a
legal word; the row is the command's own, and no word selects two rows. -/
def Obligations.OpcodeMapSelectsCommands : Prop :=
  ∀ w : Word,
    ((∃ i, decode w = .command i) ↔ ∃ r ∈ opcodeTable, r.selects w = true) ∧
    ((∃ i, decode w = .command i) ↔ legalWord w = true) ∧
    (∀ i, decode w = .command i → opcodeRow i ∈ opcodeTable ∧ (opcodeRow i).selects w = true ∧ (opcodeRow i).op = opField w) ∧
    (∀ r ∈ opcodeTable, ∀ r' ∈ opcodeTable, r.selects w = true → r'.selects w = true → r = r')

/-- R34: exactly 276 words decode to a command. -/
def Obligations.LegalWordsNumber276 : Prop :=
  ∃ l : List Word, l.length = 276 ∧ l.Nodup ∧ ∀ w, w ∈ l ↔ ∃ i, decode w = .command i

/-- R35: the illegal words are those with an unassigned opcode, a reserved bit set, or an operand field the command does not
allow; presenting one while `fault` is NONE takes ILLEGAL_COMMAND, changes nothing else and is answered `err(1)`. -/
def Obligations.IllegalWordsTakeTheFault : Prop :=
  (∀ w : Word, (∃ reason, decode w = .illegal reason) ↔
    (opField w = 0x0 ∨ 0x7 ≤ (opField w).toNat ∨ rsvField w ≠ 0 ∨
      ((opField w = 0x1 ∨ opField w = 0x3 ∨ opField w = 0x4 ∨ opField w = 0x6) ∧ opdField w ≠ 0) ∨
      (opField w = 0x5 ∧ opdHigh w ≠ 0))) ∧
  (∀ (s : State) (w : Word) (rest : List HostEvent) (reason : IllegalReason),
    s.pending = .command w :: rest → decode w = .illegal reason → s.block.fault = none →
    step s = .next { s with
      block := { s.block with fault := some .illegalCommand }
      pending := rest
      responses := s.responses ++ [.err .illegalCommand] })

/-- R34, R35: the decoding of some words, as the spec's encodings and its table V8 give them; the names of the reasons for an
illegal word are the model's (log entry 13). -/
def Obligations.DecodedSampleWords : Prop :=
  decode 0x1000 = .command .crcInit ∧ decode 0x2000 = .command (.crcByte 0x00) ∧ decode 0x20FF = .command (.crcByte 0xFF) ∧
  decode 0x2030 = .command (.crcByte 0x30) ∧ decode 0x3000 = .command .crcRead ∧ decode 0x4000 = .command .rvClear ∧
  decode 0x500F = .command (.rvDigit 0xF) ∧ decode 0x6000 = .command .rvRead ∧
  decode 0x0000 = .illegal .unassignedOpcode ∧ decode 0x7000 = .illegal .unassignedOpcode ∧
  decode 0x1001 = .illegal .operandBits ∧ decode 0x2131 = .illegal .reservedBits ∧ decode 0x5010 = .illegal .operandBits

/-! ## The step, the host's events and reset -/

/-- R28, R34: a presented word that decodes to a command is taken from the port and the command runs; a step adds nothing
else. -/
def Obligations.StepRunsDecodedCommand : Prop :=
  ∀ (s : State) (w : Word) (rest : List HostEvent) (i : Instr),
    s.pending = .command w :: rest → decode w = .command i → step s = exec i { s with pending := rest }

/-- R37: the step, for a presented word, is the rule's step function from the block's state and the word to its next state and
one response. -/
def Obligations.StepRealisesThePortFunction : Prop :=
  ∀ (s : State) (w : Word) (rest : List HostEvent), s.pending = .command w :: rest →
    step s = .next { s with
      block := (commandStep s.capacity s.block w).1
      pending := rest
      responses := s.responses ++ [(commandStep s.capacity s.block w).2] }

/-- R64, R68 and log entry 4 (the model's reading): with nothing presented the block is idle and no state changes. -/
def Obligations.IdleStepChangesNothing : Prop :=
  ∀ s : State, s.pending = [] → step s = .next s

/-- R70: a reset, alone or together with a command, sets every component to its reset value whatever the state was, executes
no command and returns no response; power-on is a reset. -/
def Obligations.ResetSetsEveryComponent : Prop :=
  (∀ (s : State) (rest : List HostEvent) (e : HostEvent), (e = .reset ∨ ∃ w, e = .resetWithCommand w) →
    step { s with pending := e :: rest } = .next { s with
      block := { crc := 0xFFFF, rvWords := [], rvAcc := 0x0000, rvN := 0, fault := none }
      pending := rest }) ∧
  State.reset.block = { crc := 0xFFFF, rvWords := [], rvAcc := 0x0000, rvN := 0, fault := none }

/-- R17: the value of every component after reset. -/
def Obligations.ResetValues : Prop :=
  State.reset.block.crc = 0xFFFF ∧ State.reset.block.rvWords = [] ∧ State.reset.block.rvAcc = 0x0000 ∧
  State.reset.block.rvN = 0 ∧ State.reset.block.fault = none

/-! ## The six commands: result, frame and completion -/

/-- R43: `CRC_INIT`, the word 0x1000. Each answer is a next state written out whole, so it is also the frame. -/
def Obligations.CrcInitResult : Prop :=
  (∀ w : Word, decode w = .command .crcInit ↔ w = 0x1000) ∧
  ∀ s : State,
    (s.block.fault = none → exec .crcInit s = .next { s with
      block := { s.block with crc := 0xFFFF }
      responses := s.responses ++ [.ack] }) ∧
    (∀ c, s.block.fault = some c → exec .crcInit s = .next { s with responses := s.responses ++ [.err c] })

/-- R44: `CRC_BYTE imm8`, the words 0x2000 to 0x20FF: the register becomes `crc_byte(crc, imm8)`; its corner cases, and that
the update by a fixed byte is a bijection. The clause on the zero byte is what R41 and R42 give: the registers it leaves
are 0x0000 and 0xF01F, where R44's corner case names 0x0000 alone (log entry 10, DEDUCED). -/
def Obligations.CrcByteResult : Prop :=
  (∀ (w : Word) (b : Byte), decode w = .command (.crcByte b) ↔ w = 0x2000 ||| b.setWidth 16) ∧
  (∀ (s : State) (b : Byte),
    (s.block.fault = none → exec (.crcByte b) s = .next { s with
      block := { s.block with crc := crcByte s.block.crc b }
      responses := s.responses ++ [.ack] }) ∧
    (∀ c, s.block.fault = some c → exec (.crcByte b) s = .next { s with responses := s.responses ++ [.err c] })) ∧
  (∀ r : Word, crcByte r 0x00 = r ↔ r = 0x0000 ∨ r = 0xF01F) ∧
  crcBytes 0xFFFF [0xFF, 0xFF] = 0x0000 ∧ crcByte 0xFFFF 0xFF = 0xFF00 ∧ crcByte 0xFFFF 0x30 = 0xD7A3 ∧
  (∀ b : Byte, Function.Bijective fun r => crcByte r b)

/-- R44's corner case as the rule words it: the byte 0x00 changes every register but 0x0000. It is expected to FAIL: by R41
and R42 the register 0xF01F is left as it was (log entry 10). -/
def Obligations.ZeroByteChangesEveryOtherRegister : Prop :=
  ∀ s : State, s.block.fault = none → s.block.crc ≠ 0x0000 →
    ∃ t, exec (.crcByte 0x00) s = .next t ∧ t.block.crc ≠ s.block.crc

/-- R45: `CRC_READ`, the word 0x3000: the response is `crc ^ 0xFFFF` and no component changes. -/
def Obligations.CrcReadResult : Prop :=
  (∀ w : Word, decode w = .command .crcRead ↔ w = 0x3000) ∧
  ∀ s : State,
    (s.block.fault = none → exec .crcRead s = .next { s with
      responses := s.responses ++ [.val16 (s.block.crc ^^^ 0xFFFF)] }) ∧
    (∀ c, s.block.fault = some c → exec .crcRead s = .next { s with responses := s.responses ++ [.err c] })

/-- R53: `RV_CLEAR`, the word 0x4000: the buffer and the word being assembled are emptied; `crc` and `fault` are kept. -/
def Obligations.RvClearResult : Prop :=
  (∀ w : Word, decode w = .command .rvClear ↔ w = 0x4000) ∧
  ∀ s : State,
    (s.block.fault = none → exec .rvClear s = .next { s with
      block := { s.block with rvWords := [], rvAcc := 0x0000, rvN := 0 }
      responses := s.responses ++ [.ack] }) ∧
    (∀ c, s.block.fault = some c → exec .rvClear s = .next { s with responses := s.responses ++ [.err c] })

/-- R54: `RV_DIGIT imm4`, the words 0x5000 to 0x500F: overflow on the first digit of a word with no room; else the fourth digit
completes a word and any other extends the word being assembled. -/
def Obligations.RvDigitResult : Prop :=
  (∀ (w : Word) (d : Digit), decode w = .command (.rvDigit d) ↔ w = 0x5000 ||| d.setWidth 16) ∧
  ∀ (s : State) (d : Digit),
    (s.block.fault = none → (s.block.rvN = 0 ∧ ∃ n h, s.capacity = .words n h ∧ s.block.rvWords.length = n) →
      exec (.rvDigit d) s = .next { s with
        block := { s.block with fault := some .rvOverflow }
        responses := s.responses ++ [.err .rvOverflow] }) ∧
    (s.block.fault = none → s.block.rvN = 3 →
      exec (.rvDigit d) s = .next { s with
        block := { s.block with
          rvWords := s.block.rvWords ++ [(s.block.rvAcc <<< 4) ||| d.setWidth 16], rvAcc := 0x0000, rvN := 0 }
        responses := s.responses ++ [.ack] }) ∧
    (∀ n' : Fin 4, s.block.fault = none → n'.val = s.block.rvN.val + 1 →
      ¬(s.block.rvN = 0 ∧ ∃ n h, s.capacity = .words n h ∧ s.block.rvWords.length = n) →
      exec (.rvDigit d) s = .next { s with
        block := { s.block with rvAcc := (s.block.rvAcc <<< 4) ||| d.setWidth 16, rvN := n' }
        responses := s.responses ++ [.ack] }) ∧
    (∀ c, s.block.fault = some c → exec (.rvDigit d) s = .next { s with responses := s.responses ++ [.err c] })

/-- R55: `RV_READ`, the word 0x6000: the response is the words' bits in order, then the partial word's, reversed bit for bit; it
has 16 bits for each complete word and 16 for a partial one, and no component changes. -/
def Obligations.RvReadResult : Prop :=
  (∀ w : Word, decode w = .command .rvRead ↔ w = 0x6000) ∧
  ∀ s : State,
    (s.block.fault = none → ∃ q : BitSeq,
      exec .rvRead s = .next { s with responses := s.responses ++ [.bitseq q] } ∧
      q = (s.block.rvWords.flatMap bits16 ++ if 0 < s.block.rvN then bits16 s.block.rvAcc else []).reverse ∧
      q.length = 16 * (s.block.rvWords.length + if 0 < s.block.rvN then 1 else 0)) ∧
    (∀ c, s.block.fault = some c → exec .rvRead s = .next { s with responses := s.responses ++ [.err c] })

/-- R29: the reads leave every component as it was and answer the same when repeated; a second CRC_INIT or RV_CLEAR in a row
changes nothing; CRC_BYTE and RV_DIGIT are not idempotent. -/
def Obligations.IdempotentCommands : Prop :=
  (∀ s : State, ∀ i ∈ [Instr.crcRead, .rvRead], ∃ r t u, exec i s = .next t ∧ exec i t = .next u ∧
    t.block = s.block ∧ u.block = s.block ∧ t.responses = s.responses ++ [r] ∧ u.responses = s.responses ++ [r, r]) ∧
  (∀ s : State, ∀ i ∈ [Instr.crcInit, .rvClear], ∃ t u, exec i s = .next t ∧ exec i t = .next u ∧ u.block = t.block) ∧
  (∃ s t u : State, exec (.crcByte 0x30) s = .next t ∧ exec (.crcByte 0x30) t = .next u ∧ u.block ≠ t.block) ∧
  (∃ s t u : State, exec (.rvDigit 0x1) s = .next t ∧ exec (.rvDigit 0x1) t = .next u ∧ u.block ≠ t.block)

/-! ## The two units -/

/-- R19, R14, R37: every command answers a next state with exactly one more response; no command of one unit writes the
other unit's components, and none changes the parameter or what the host presents. -/
def Obligations.CommandFrames : Prop :=
  ∀ (i : Instr) (s : State), ∃ t r, exec i s = .next t ∧ t.responses = s.responses ++ [r] ∧
    t.capacity = s.capacity ∧ t.pending = s.pending ∧
    (isCrcCommand i = true → t.block.rvWords = s.block.rvWords ∧ t.block.rvAcc = s.block.rvAcc ∧
      t.block.rvN = s.block.rvN ∧ t.block.fault = s.block.fault) ∧
    (isCrcCommand i = false → t.block.crc = s.block.crc)

/-- R19: what a command of one unit answers and leaves in its unit depends on nothing of the other unit. -/
def Obligations.UnitsDoNotInterfere : Prop :=
  (∀ (i : Instr) (s s' : State), isCrcCommand i = true → s.block.crc = s'.block.crc → s.block.fault = s'.block.fault →
    ∃ t t' r, exec i s = .next t ∧ exec i s' = .next t' ∧ t.responses = s.responses ++ [r] ∧
      t'.responses = s'.responses ++ [r] ∧ t.block.crc = t'.block.crc ∧ t.block.fault = t'.block.fault) ∧
  (∀ (i : Instr) (s s' : State), isCrcCommand i = false → s.capacity = s'.capacity →
    s.block.rvWords = s'.block.rvWords → s.block.rvAcc = s'.block.rvAcc → s.block.rvN = s'.block.rvN →
    s.block.fault = s'.block.fault →
    ∃ t t' r, exec i s = .next t ∧ exec i s' = .next t' ∧ t.responses = s.responses ++ [r] ∧
      t'.responses = s'.responses ++ [r] ∧ t.block.rvWords = t'.block.rvWords ∧ t.block.rvAcc = t'.block.rvAcc ∧
      t.block.rvN = t'.block.rvN ∧ t.block.fault = t'.block.fault)

/-- R19: a command of each unit, in either order, leave the same block and are answered the same, as long as no fault is
taken. -/
def Obligations.UnitsCommandsCommute : Prop :=
  ∀ (i j : Instr) (s : State), isCrcCommand i = true → isCrcCommand j = false → s.block.fault = none →
    ∃ a b ij ji ri rj, exec i s = .next a ∧ exec j a = .next ij ∧ exec j s = .next b ∧ exec i b = .next ji ∧
      (ij.block.fault = none ↔ ji.block.fault = none) ∧
      (ij.block.fault = none → ij.block = ji.block ∧ ij.responses = s.responses ++ [ri, rj] ∧
        ji.responses = s.responses ++ [rj, ri])

/-! ## Faults -/

/-- R60: the two causes and their codes; a fault is taken exactly when its condition holds of what is presented. -/
def Obligations.FaultsHaveTheirTwoCauses : Prop :=
  faultBits none = 0 ∧ faultBits (some .illegalCommand) = 1 ∧ faultBits (some .rvOverflow) = 2 ∧
  ∀ s t : State, s.block.fault = none → step s = .next t →
    (t.block.fault = some .illegalCommand ↔
      ∃ w rest reason, s.pending = .command w :: rest ∧ decode w = .illegal reason) ∧
    (t.block.fault = some .rvOverflow ↔
      (∃ w rest d, s.pending = .command w :: rest ∧ decode w = .command (.rvDigit d)) ∧
      s.block.rvN = 0 ∧ ∃ n h, s.capacity = .words n h ∧ s.block.rvWords.length = n)

/-- R61: a step that takes a fault writes its code, answers `err` with it, and keeps every other component. -/
def Obligations.FaultEntryIsPrecise : Prop :=
  ∀ (s t : State) (c : FaultCause), s.block.fault = none → step s = .next t → t.block.fault = some c →
    t.block = { s.block with fault := some c } ∧ t.responses = s.responses ++ [.err c] ∧
    t.capacity = s.capacity ∧ t.pending = s.pending.tail

/-- R62: while `fault` is not NONE every word presented, legal or not, is refused with the first fault's code and changes no
component; and only a reset, which gives every component its reset value, returns the block to work. -/
def Obligations.FaultIsStickyUntilReset : Prop :=
  (∀ (s : State) (w : Word) (rest : List HostEvent) (c : FaultCause),
    s.block.fault = some c → s.pending = .command w :: rest →
    step s = .next { s with pending := rest, responses := s.responses ++ [.err c] }) ∧
  (∀ (s t : State) (c : FaultCause), s.block.fault = some c → step s = .next t →
    t.block = s.block ∨ (t.block = Block.reset ∧ t.responses = s.responses ∧
      ∃ rest, s.pending = .reset :: rest ∨ ∃ w, s.pending = .resetWithCommand w :: rest))

/-- R63: a command meets at most one of the three conditions, tested in this order: an earlier fault, an illegal word, a full
buffer; and a reset presented with it wins over all three. -/
def Obligations.FaultPriority : Prop :=
  (∀ (s : State) (w : Word) (rest : List HostEvent), s.pending = .command w :: rest →
    ∃ t r, step s = .next t ∧ t.responses = s.responses ++ [r] ∧
      ((∃ c, s.block.fault = some c ∧ r = .err c) ∨
       (s.block.fault = none ∧ (∃ reason, decode w = .illegal reason) ∧ r = .err .illegalCommand) ∨
       (s.block.fault = none ∧ (∃ d, decode w = .command (.rvDigit d)) ∧ overflows s.capacity s.block = true ∧
         r = .err .rvOverflow) ∨
       (s.block.fault = none ∧ (∃ i, decode w = .command i ∧ ((∃ d, i = .rvDigit d) → overflows s.capacity s.block = false)) ∧
         isErr r = false))) ∧
  (∀ (s : State) (w : Word) (rest : List HostEvent), s.pending = .resetWithCommand w :: rest →
    step s = .next { s with block := Block.reset, pending := rest })

/-- R65: no legal command takes a fault, whatever its operand and the state's data, but an `RV_DIGIT` on a full buffer. -/
def Obligations.DataNeverFaults : Prop :=
  ∀ (i : Instr) (s : State), s.block.fault = none →
    ((∃ d, i = .rvDigit d) → ¬(s.block.rvN = 0 ∧ ∃ n h, s.capacity = .words n h ∧ s.block.rvWords.length = n)) →
    ∃ t r, exec i s = .next t ∧ t.block.fault = none ∧ t.responses = s.responses ++ [r] ∧ isErr r = false

/-- R37: every command presented returns exactly one response, of the kind its command returns when it runs; a `bitseq` has a
length that is a multiple of 16 and at most 16 for each word of the capacity; an `err` carries the block's fault. -/
def Obligations.OneResponsePerCommand : Prop :=
  ∀ (s : State) (w : Word) (rest : List HostEvent), s.pending = .command w :: rest →
    ∃ t r, step s = .next t ∧ t.pending = rest ∧ t.responses = s.responses ++ [r] ∧
      match r with
      | .ack => decode w = .command .crcInit ∨ (∃ b, decode w = .command (.crcByte b)) ∨
          decode w = .command .rvClear ∨ ∃ d, decode w = .command (.rvDigit d)
      | .val16 _ => decode w = .command .crcRead
      | .bitseq q => decode w = .command .rvRead ∧ ∃ k, q.length = 16 * k ∧ (BufferInv s → hasRoom s.capacity k = true)
      | .err c => t.block.fault = some c

/-! ## Invariants every step keeps -/

/-- R18: from every state that meets them, every step keeps `rv_acc < 16^rv_n` and the words held within the capacity; the
bounds on `rv_n` and `fault` are in their types. -/
def Obligations.BufferInvariantKept : Prop :=
  ∀ s t : State, BufferInv s → step s = .next t → BufferInv t

/-- R18: the invariant holds right after reset, whatever the capacity. -/
def Obligations.BufferInvariantAtReset : Prop :=
  ∀ capacity : Capacity, BufferInv (State.resetWith capacity)

/-- R8, R46: if `crc` holds the remainder of a message, then after a step that leaves no fault it holds the remainder of the
message as the step's event leaves it: every byte since the last CRC_INIT or reset, in order. -/
def Obligations.CrcTracksTheMessage : Prop :=
  ∀ (s t : State) (e : HostEvent) (rest : List HostEvent) (m : List Byte),
    s.pending = e :: rest → HoldsMessage s.block m → step s = .next t → t.block.fault = none →
    HoldsMessage t.block (messageAfter m e)

/-- R9, R10, R56: if the bit-reversal unit holds a string, then after a step that leaves no fault it holds the string as the
step's event leaves it: its complete words in order, and the number and the value of the digits after them. -/
def Obligations.BufferTracksTheString : Prop :=
  ∀ (s t : State) (e : HostEvent) (rest : List HostEvent) (h : List Digit),
    s.pending = e :: rest → HoldsString s.block h → step s = .next t → t.block.fault = none →
    HoldsString t.block (stringAfter h e)

/-- R17, R71: right after reset the units hold the empty message and the empty string, and the reads answer so. -/
def Obligations.ReadyAfterReset : Prop :=
  HoldsMessage State.reset.block [] ∧ HoldsString State.reset.block [] ∧
  exec .crcRead State.reset = .next { State.reset with responses := [.val16 0x0000] } ∧
  exec .rvRead State.reset = .next { State.reset with responses := [.bitseq []] }

/-- R46, R56: a read answers the document's function of the message or string its unit holds. -/
def Obligations.ReadsAnswerTheFunctions : Prop :=
  (∀ (s : State) (m : List Byte), s.block.fault = none → HoldsMessage s.block m →
    exec .crcRead s = .next { s with responses := s.responses ++ [.val16 (crc16 m)] }) ∧
  (∀ (s : State) (h : List Digit), s.block.fault = none → HoldsString s.block h →
    exec .rvRead s = .next { s with responses := s.responses ++ [.bitseq (flipBitOrder h)] })

/-! ## The command layer realises the function layer -/

/-- R46: CRC_INIT, the bytes, CRC_READ, from any state without a fault, answer `crc16` of the bytes, with the whole final state;
with any other commands but CRC_INIT mixed in that take no fault the last response is the same, and no fault is taken when no
digit is among them or when the digits fit the capacity beside the string already held; after reset the leading CRC_INIT may be
left out, with no fault taken when the digits fit; and after any events that leave no fault, `crc` is the fold of the bytes
since the last CRC_INIT or reset. -/
def Obligations.CommandsRealiseCrc16 : Prop :=
  (∀ (s : State) (data : List Byte), s.block.fault = none →
    core.run (data.length + 2) { s with pending := (programWords (crc16Program data)).map .command } =
      .next { s with
        block := { s.block with crc := crcBytes 0xFFFF data }
        pending := []
        responses := s.responses ++ (List.replicate (data.length + 1) .ack ++ [.val16 (crc16 data)]) }) ∧
  (∀ (s : State) (is : List Instr), s.block.fault = none → .crcInit ∉ is →
    ∃ t : State, core.run (is.length + 2)
        { s with pending := (programWords (.crcInit :: (is ++ [.crcRead]))).map .command } = .next t ∧
      (t.block.fault = none → t.responses.getLast? = some (.val16 (crc16 (bytesOf is)))) ∧
      (digitsOf is = [] → t.block.fault = none) ∧
      (∀ h, HoldsString s.block h → hasRoom s.capacity (wordCount (h ++ digitsOf is)) = true → t.block.fault = none)) ∧
  (∀ (s : State) (is : List Instr), s.block = Block.reset → .crcInit ∉ is →
    ∃ t : State, core.run (is.length + 1) { s with pending := (programWords (is ++ [.crcRead])).map .command } = .next t ∧
      (t.block.fault = none → t.responses.getLast? = some (.val16 (crc16 (bytesOf is)))) ∧
      (hasRoom s.capacity (wordCount (digitsOf is)) = true → t.block.fault = none)) ∧
  (∀ (s : State) (es : List HostEvent) (m : List Byte), HoldsMessage s.block m →
    ∃ t : State, core.run es.length { s with pending := es } = .next t ∧
      (t.block.fault = none → HoldsMessage t.block (es.foldl messageAfter m)))

/-- R56: RV_CLEAR, the digits, RV_READ, from any state without a fault, answer `flip_bit_order` of the digits when their words
fit the capacity; with more words than the capacity the first digit too many takes RV_OVERFLOW and the read answers `err(2)`.
The same, by the same condition, with any other commands but RV_CLEAR mixed in, and after reset without the leading
RV_CLEAR. -/
def Obligations.CommandsRealiseFlipBitOrder : Prop :=
  (∀ (s : State) (h : List Digit), s.block.fault = none → hasRoom s.capacity (wordCount h) = true →
    ∃ b : Block, HoldsString b h ∧ b.crc = s.block.crc ∧ b.fault = none ∧
      core.run (h.length + 2) { s with pending := (programWords (flipProgram h)).map .command } =
        .next { s with
          block := b
          pending := []
          responses := s.responses ++ (List.replicate (h.length + 1) .ack ++ [.bitseq (flipBitOrder h)]) }) ∧
  (∀ (s : State) (h : List Digit) (n : Nat) (hn : 1 ≤ n), s.block.fault = none → s.capacity = .words n hn → n < wordCount h →
    ∃ t : State, core.run (h.length + 2) { s with pending := (programWords (flipProgram h)).map .command } = .next t ∧
      t.responses = s.responses ++
        (List.replicate (4 * n + 1) .ack ++ List.replicate (h.length - 4 * n + 1) (.err .rvOverflow))) ∧
  (∀ (s : State) (is : List Instr), s.block.fault = none → .rvClear ∉ is →
    ∃ t : State, core.run (is.length + 2)
        { s with pending := (programWords (.rvClear :: (is ++ [.rvRead]))).map .command } = .next t ∧
      if hasRoom s.capacity (wordCount (digitsOf is)) = true then
        t.block.fault = none ∧ t.responses.getLast? = some (.bitseq (flipBitOrder (digitsOf is)))
      else t.block.fault = some .rvOverflow ∧ t.responses.getLast? = some (.err .rvOverflow)) ∧
  (∀ (s : State) (is : List Instr), s.block = Block.reset → .rvClear ∉ is →
    ∃ t : State, core.run (is.length + 1) { s with pending := (programWords (is ++ [.rvRead])).map .command } = .next t ∧
      if hasRoom s.capacity (wordCount (digitsOf is)) = true then
        t.block.fault = none ∧ t.responses.getLast? = some (.bitseq (flipBitOrder (digitsOf is)))
      else t.block.fault = some .rvOverflow ∧ t.responses.getLast? = some (.err .rvOverflow))

/-- R77: every run ends, in the state and with the responses that `runProgram` gives; a program of words is answered once for
each word, item `i` being the response of the step function to word `i` in the state the words before it left; a run, with
resets in it or not, has gone wrong exactly when some response is an `err`, and without resets equally when the final `fault`
is not NONE. Of a list with a reset after its last word, or with a reset and no word, the first and third clauses rest on the
model's choice of log entry 16. The equivalences are for a start without a fault or at least one event: the run of no word from a faulted state
has gone wrong by its final `fault` alone. -/
def Obligations.EveryRunEnds : Prop :=
  (∀ (s : State) (es : List HostEvent),
    core.run es.length { s with pending := es } = .next { s with
      block := (runProgram s.capacity s.block es).final
      pending := []
      responses := s.responses ++ (runProgram s.capacity s.block es).responses }) ∧
  (∀ (capacity : Capacity) (b : Block) (ws : List Word),
    (runProgram capacity b (ws.map .command)).responses.length = ws.length ∧
    ∀ (i : Nat) (w : Word), ws[i]? = some w →
      (runProgram capacity b (ws.map .command)).responses[i]? =
        some (commandStep capacity (runProgram capacity b ((ws.take i).map .command)).final w).2) ∧
  (∀ (capacity : Capacity) (b : Block) (es : List HostEvent), b.fault = none ∨ es ≠ [] →
    (goneWrong (runProgram capacity b es) = true ↔ ∃ r ∈ (runProgram capacity b es).responses, isErr r = true)) ∧
  (∀ (capacity : Capacity) (b : Block) (ws : List Word), b.fault = none ∨ ws ≠ [] →
    ((runProgram capacity b (ws.map .command)).final.fault ≠ none ↔
      ∃ r ∈ (runProgram capacity b (ws.map .command)).responses, isErr r = true)) ∧
  (∀ (capacity : Capacity) (b : Block), goneWrong (runProgram capacity b []) = true ↔ b.fault ≠ none)

/-- R77: the run of a program whose last event is a word, resets in between or not, ends when that word has been answered: the
machine is then in the outcome's final state, nothing is pending, and there is one response for each word executed, in order,
each the step function's response to its word in the state left by what came before; the run has gone wrong exactly when the
final `fault` is not NONE or some response is an `err`, which is exactly when some response is one. -/
def Obligations.RunEndsAtTheLastWord : Prop :=
  ∀ (s : State) (es : List HostEvent) (w : Word) (o : RunOutcome), o = runProgram s.capacity s.block (es ++ [.command w]) →
    core.run (es.length + 1) { s with pending := es ++ [.command w] } = .next { s with
      block := o.final
      pending := []
      responses := s.responses ++ o.responses } ∧
    o.responses.length = (wordsOf (es ++ [.command w])).length ∧
    (∀ (before after : List HostEvent) (v : Word), es ++ [.command w] = before ++ .command v :: after →
      o.responses[(wordsOf before).length]? =
        some (commandStep s.capacity (runProgram s.capacity s.block before).final v).2) ∧
    o.final = (commandStep s.capacity (runProgram s.capacity s.block es).final w).1 ∧
    (goneWrong o = true ↔ o.final.fault ≠ none ∨ ∃ r ∈ o.responses, isErr r = true) ∧
    (goneWrong o = true ↔ ∃ r ∈ o.responses, isErr r = true)

/-! ## The checksum engine's functions -/

/-- R41: one shift step, by the test of bit 15 before the shift and in integers, with the rule's examples. -/
def Obligations.CrcShiftStep : Prop :=
  (∀ r : Word, crcShift1 r = if r.getLsbD 15 = true then (r <<< 1) ^^^ 0x1021 else r <<< 1) ∧
  (∀ r : Word, (crcShift1 r).toNat = (2 * r.toNat) % 65536 ^^^ (if 32768 ≤ r.toNat then 0x1021 else 0)) ∧
  crcShift1 0x0000 = 0x0000 ∧ crcShift1 0x8000 = 0x1021 ∧ crcShift1 0x7FFF = 0xFFFE ∧ crcShift1 0xFFFF = 0xEFDF ∧
  crcShift1 0x4000 = 0x8000 ∧ crcShift1 0x9021 = 0x3063

/-- R42: the byte is XORed into bits 15 to 8 once and eight shift steps follow; the rule's example. -/
def Obligations.CrcByteUpdate : Prop :=
  (∀ (b : Byte) (i : Nat), (byteHigh b).getLsbD i = (decide (8 ≤ i) && b.getLsbD (i - 8))) ∧
  (∀ (r : Word) (b : Byte), crcByte r b =
    crcShift1 (crcShift1 (crcShift1 (crcShift1 (crcShift1 (crcShift1 (crcShift1 (crcShift1 (r ^^^ byteHigh b))))))))) ∧
  (0xFFFF : Word) ^^^ byteHigh 0x30 = 0xCFFF ∧ crcByte 0xFFFF 0x30 = 0xD7A3

/-- R40: `crc16` of a message, by the register after each byte; the document's example and its register. -/
def Obligations.Crc16OfTheMessage : Prop :=
  crc16 [] = 0xFFFF ^^^ 0xFFFF ∧
  (∀ (data : List Byte) (b : Byte), crc16 (data ++ [b]) = crcByte (crc16 data ^^^ 0xFFFF) b ^^^ 0xFFFF) ∧
  crcBytes 0xFFFF [0x30, 0x00, 0xE2, 0x80, 0x11, 0x60, 0x60, 0x00, 0x02, 0x11, 0xEB, 0xDD, 0x71, 0x75] = 0x673C ∧
  crc16 [0x30, 0x00, 0xE2, 0x80, 0x11, 0x60, 0x60, 0x00, 0x02, 0x11, 0xEB, 0xDD, 0x71, 0x75] = 0x98C3

/-- R48: the bit-serial form and the table form equal `crc_byte` for every register and byte, and the shift step is linear. -/
def Obligations.CrcFormsAgree : Prop :=
  (∀ (r : Word) (b : Byte), crcByteSerial r b = crcByte r b) ∧
  (∀ (r : Word) (b : Byte), crcByteTable r b = crcByte r b) ∧
  (∀ x y : Word, crcShift1 (x ^^^ y) = crcShift1 x ^^^ crcShift1 y) ∧
  crcTable 0x00 = 0x0000 ∧ crcTable 0x01 = 0x1021 ∧ crcTable 0x80 = 0x9188 ∧ crcTable 0xFF = 0x1EF0

/-- R49: the edges of the input, the split of a message at any point, and the residue: appending the CRC high byte first
gives the register 0x1D0F for every message. -/
def Obligations.CrcEdgesAndResidue : Prop :=
  crc16 [] = 0x0000 ∧ crc16 [0x00] = 0x1E0F ∧
  (∀ (r : Word) (x y : List Byte), crcBytes r (x ++ y) = crcBytes (crcBytes r x) y) ∧
  (∀ data : List Byte,
    crcBytes 0xFFFF (data ++ [(crc16 data).extractLsb' 8 8, (crc16 data).extractLsb' 0 8]) = 0x1D0F ∧
    crc16 (data ++ [(crc16 data).extractLsb' 8 8, (crc16 data).extractLsb' 0 8]) = 0xE2F0)

/-! ## The bit-reversal unit's functions -/

/-- R51, R25: the result has 16 bits for each word; the last word comes first, and inside word `j`, counted from the front of
the string, bit `t` of its number comes at place `t`; the number has its first digit most significant. -/
def Obligations.FlipPlacesEveryBit : Prop :=
  (∀ h : List Digit, (flipBitOrder h).length = 16 * ((h.length + 3) / 4)) ∧
  (∀ (h : List Digit) (j t : Nat), j < (h.length + 3) / 4 → t < 16 →
    (flipBitOrder h)[16 * ((h.length + 3) / 4 - 1 - j) + t]? =
      some ((digitsValue ((h.drop (4 * j)).take 4)).getLsbD t)) ∧
  (∀ ds : List Digit, ds.length ≤ 4 → (digitsValue ds).toNat = ds.foldl (fun v d => v * 16 + d.toNat) 0) ∧
  flipBitOrder [] = [] ∧ flipBitOrder [0x1, 0x2, 0x3, 0x4] = bits16 0x2C48 ∧
  flipBitOrder [0x1, 0x2, 0x3, 0x4, 0x5, 0x6, 0x7, 0x8] = bits16 0x1E6A ++ bits16 0x2C48

/-- R52: each digit is four bits, most significant first; `bits_to_digits` is the inverse for the lengths that are a multiple of
4, with each digit's value; and for whole words the bits of the digits are the `S` of R51. -/
def Obligations.DigitBitsInverse : Prop :=
  (∀ h : List Digit, (digitsToBits h).length = 4 * h.length) ∧
  (∀ (h : List Digit) (q t : Nat), t ≤ 3 → (digitsToBits h)[4 * q + t]? = h[q]?.map fun d => d.getLsbD (3 - t)) ∧
  (∀ h : List Digit, bitsToDigits (digitsToBits h) = some h) ∧
  (∀ s : BitSeq, 4 ∣ s.length → ∃ h, bitsToDigits s = some h ∧ h.length = s.length / 4 ∧ digitsToBits h = s) ∧
  (∀ a b c d : Bool, (bitsDigit a b c d).toNat = 8 * a.toNat + 4 * b.toNat + 2 * c.toNat + d.toNat) ∧
  (∀ h : List Digit, 4 ∣ h.length → wordBits h = digitsToBits h)

/-- R57: reversing twice restores the bits of a string whose length is a multiple of 4, and so its digits; for another length
it restores the padded bit string `S`, as in the rule's example. -/
def Obligations.FlipRoundTrip : Prop :=
  (∀ h : List Digit, 4 ∣ h.length → ∃ ds, bitsToDigits (flipBitOrder h) = some ds ∧
    flipBitOrder ds = digitsToBits h ∧ bitsToDigits (flipBitOrder ds) = some h) ∧
  (∀ h : List Digit, ∃ ds, bitsToDigits (flipBitOrder h) = some ds ∧ flipBitOrder ds = wordBits h) ∧
  bitsToDigits (flipBitOrder [0xA, 0xB, 0xC]) = some [0x3, 0xD, 0x5, 0x0] ∧
  flipBitOrder [0x3, 0xD, 0x5, 0x0] = digitsToBits [0x0, 0xA, 0xB, 0xC]

/-- R58: for whole words the result is the digits in reverse order, each with its least significant bit first; for one word,
item `i` is bit `i` of the word. -/
def Obligations.FlipClosedForm : Prop :=
  (∀ (h : List Digit) (i : Nat), 4 ∣ h.length → i < 4 * h.length →
    (flipBitOrder h)[i]? = h[h.length - 1 - i / 4]?.map fun d => d.getLsbD (i % 4)) ∧
  (∀ (w : Word) (i : Nat), i < 16 →
    (flipBitOrder [w.extractLsb' 12 4, w.extractLsb' 8 4, w.extractLsb' 4 4, w.extractLsb' 0 4])[i]? = some (w.getLsbD i))

/-- R59: with `k = L mod 4` digits in a last partial word, the result begins with that word's bits, reversed, at places 0 to
`4*k - 1`, then zeros at places `4*k` to 15, then the reversal of the whole words; the rule's examples. -/
def Obligations.FlipPartialWord : Prop :=
  (∀ (h : List Digit) (i : Nat), i < 4 * (h.length % 4) →
    (flipBitOrder h)[i]? = h[h.length - 1 - i / 4]?.map fun d => d.getLsbD (i % 4)) ∧
  (∀ (h : List Digit) (i : Nat), h.length % 4 ≠ 0 → 4 * (h.length % 4) ≤ i → i < 16 → (flipBitOrder h)[i]? = some false) ∧
  (∀ h : List Digit, h.length % 4 ≠ 0 → (flipBitOrder h).drop 16 = flipBitOrder (h.take (4 * (h.length / 4)))) ∧
  flipBitOrder [0x1] = bits16 0x8000 ∧ flipBitOrder [0xA, 0xB, 0xC] = bits16 0x3D50 ∧
  flipBitOrder [0x1, 0x2, 0x3, 0x4, 0x5] = bits16 0xA000 ++ bits16 0x2C48

/-! ## The assembler -/

/-- R39: the rule's two examples, from their text to their command words, and `RV_WORD`. -/
def Obligations.PseudoInstructionExamples : Prop :=
  (assemble "CRC16 3000".toList).map programWords = some [0x1000, 0x2030, 0x2000, 0x3000] ∧
  (assemble "FLIP 1234".toList).map programWords = some [0x4000, 0x5001, 0x5002, 0x5003, 0x5004, 0x6000] ∧
  (assemble "RV_WORD 0x1234".toList).map programWords = some [0x5001, 0x5002, 0x5003, 0x5004]

/-- R38: `CRC_BYTE` takes the operands 0 to 255 and `RV_DIGIT` 0 to 15; a larger operand is an error of the assembler. -/
def Obligations.AssemblerOperandRanges : Prop :=
  ∀ (operand : List Char) (n : Nat), operandNumber operand = some n →
    assembleOperand "CRC_BYTE".toList operand = (if n ≤ 255 then some [.crcByte (BitVec.ofNat 8 n)] else none) ∧
    assembleOperand "RV_DIGIT".toList operand = (if n ≤ 15 then some [.rvDigit (BitVec.ofNat 4 n)] else none)
end

