-- ==== Sys2Proof/Laws/State.lean ====
section
/-! SUPPORT. What each named update leaves in each field: one lemma per field per update, so that no proof unfolds an
update. -/

namespace Sys2Proof.Machine

section BlockUpdates
variable (b : Block) (v acc : Word) (ws : List Word) (n : Fin 4) (f : Option FaultCause)

@[simp] theorem Block.setCrc_crc : (b.setCrc v).crc = v := rfl
@[simp] theorem Block.setCrc_rvWords : (b.setCrc v).rvWords = b.rvWords := rfl
@[simp] theorem Block.setCrc_rvAcc : (b.setCrc v).rvAcc = b.rvAcc := rfl
@[simp] theorem Block.setCrc_rvN : (b.setCrc v).rvN = b.rvN := rfl
@[simp] theorem Block.setCrc_fault : (b.setCrc v).fault = b.fault := rfl

@[simp] theorem Block.setBuffer_crc : (b.setBuffer ws acc n).crc = b.crc := rfl
@[simp] theorem Block.setBuffer_rvWords : (b.setBuffer ws acc n).rvWords = ws := rfl
@[simp] theorem Block.setBuffer_rvAcc : (b.setBuffer ws acc n).rvAcc = acc := rfl
@[simp] theorem Block.setBuffer_rvN : (b.setBuffer ws acc n).rvN = n := rfl
@[simp] theorem Block.setBuffer_fault : (b.setBuffer ws acc n).fault = b.fault := rfl

@[simp] theorem Block.setFault_crc : (b.setFault f).crc = b.crc := rfl
@[simp] theorem Block.setFault_rvWords : (b.setFault f).rvWords = b.rvWords := rfl
@[simp] theorem Block.setFault_rvAcc : (b.setFault f).rvAcc = b.rvAcc := rfl
@[simp] theorem Block.setFault_rvN : (b.setFault f).rvN = b.rvN := rfl
@[simp] theorem Block.setFault_fault : (b.setFault f).fault = f := rfl

end BlockUpdates

section StateUpdates
variable (s : State) (b : Block) (es : List HostEvent) (r : Response)

@[simp] theorem State.setBlock_block : (s.setBlock b).block = b := rfl
@[simp] theorem State.setBlock_capacity : (s.setBlock b).capacity = s.capacity := rfl
@[simp] theorem State.setBlock_pending : (s.setBlock b).pending = s.pending := rfl
@[simp] theorem State.setBlock_responses : (s.setBlock b).responses = s.responses := rfl

@[simp] theorem State.setPending_block : (s.setPending es).block = s.block := rfl
@[simp] theorem State.setPending_capacity : (s.setPending es).capacity = s.capacity := rfl
@[simp] theorem State.setPending_pending : (s.setPending es).pending = es := rfl
@[simp] theorem State.setPending_responses : (s.setPending es).responses = s.responses := rfl

@[simp] theorem State.respond_block : (s.respond r).block = s.block := rfl
@[simp] theorem State.respond_capacity : (s.respond r).capacity = s.capacity := rfl
@[simp] theorem State.respond_pending : (s.respond r).pending = s.pending := rfl
@[simp] theorem State.respond_responses : (s.respond r).responses = s.responses ++ [r] := rfl

end StateUpdates

end Sys2Proof.Machine
end

