-- ==== Sys2Proof/Laws/Ops.lean ====
section
/-! SUPPORT. What each shared operation can do, said once: the gate, running a command, the port, each command's effect,
and one inversion lemma for the step. -/

namespace Sys2Proof.Machine

theorem gated_of_none (effect : Block → Block × Response) {b : Block} (h : b.fault = none) :
    gated effect b = effect b := by
  simp [gated, h]

theorem gated_of_fault (effect : Block → Block × Response) {b : Block} {c : FaultCause} (h : b.fault = some c) :
    gated effect b = (b, .err c) := by
  simp [gated, h]

/-- A gated command is refused with the earlier fault's code, or has its own effect. -/
theorem gated_cases (effect : Block → Block × Response) (b : Block) :
    (∃ c, b.fault = some c ∧ gated effect b = (b, .err c)) ∨ (b.fault = none ∧ gated effect b = effect b) := by
  cases h : b.fault with
  | none => exact .inr ⟨rfl, gated_of_none effect h⟩
  | some c => exact .inl ⟨c, rfl, gated_of_fault effect h⟩

@[simp] theorem State.runCommand_block (s : State) (effect : Block → Block × Response) :
    (s.runCommand effect).block = (gated effect s.block).1 := rfl

@[simp] theorem State.runCommand_capacity (s : State) (effect : Block → Block × Response) :
    (s.runCommand effect).capacity = s.capacity := rfl

@[simp] theorem State.runCommand_pending (s : State) (effect : Block → Block × Response) :
    (s.runCommand effect).pending = s.pending := rfl

@[simp] theorem State.runCommand_responses (s : State) (effect : Block → Block × Response) :
    (s.runCommand effect).responses = s.responses ++ [(gated effect s.block).2] := rfl

/-- A command that passes the gate: its effect's block, and its effect's response. -/
theorem State.runCommand_of_none (effect : Block → Block × Response) {s : State} (h : s.block.fault = none) :
    s.runCommand effect = (s.setBlock (effect s.block).1).respond (effect s.block).2 := by
  rw [State.runCommand, gated_of_none effect h]

/-- A command refused at the gate: the same block, and the earlier fault's code. -/
theorem State.runCommand_of_fault (effect : Block → Block × Response) {s : State} {c : FaultCause}
    (h : s.block.fault = some c) : s.runCommand effect = s.respond (.err c) := by
  rw [State.runCommand, gated_of_fault effect h]
  rfl

/-- The buffer is full exactly when the capacity is a number of words and that many are held. -/
theorem bufferFull_iff (capacity : Capacity) (len : Nat) :
    bufferFull capacity len = true ↔ ∃ n h, capacity = .words n h ∧ len = n := by
  cases len with
  | zero =>
    refine iff_of_false (by simp [bufferFull]) ?_
    rintro ⟨n, h, -, h0⟩
    omega
  | succ k => cases capacity <;> simp_all [bufferFull]

/-- An `RV_DIGIT` overflows on the first digit of a word when the buffer is full (R54). -/
theorem overflows_iff (capacity : Capacity) (b : Block) :
    overflows capacity b = true ↔ b.rvN = 0 ∧ ∃ n h, capacity = .words n h ∧ b.rvWords.length = n := by
  simp [overflows, bufferFull_iff]

/-- What `RV_DIGIT` can do behind the gate: overflow, complete a word, or extend the word being assembled (R54). -/
theorem rvDigitEffect_cases (capacity : Capacity) (d : Digit) (b : Block) :
    (overflows capacity b = true ∧ rvDigitEffect capacity d b = (b.setFault (some .rvOverflow), .err .rvOverflow)) ∨
    (overflows capacity b = false ∧ b.rvN = 3 ∧
      rvDigitEffect capacity d b = (b.setBuffer (b.rvWords ++ [accWith b.rvAcc d]) 0 0, .ack)) ∨
    (overflows capacity b = false ∧ b.rvN ≠ 3 ∧
      rvDigitEffect capacity d b = (b.setBuffer b.rvWords (accWith b.rvAcc d) (b.rvN + 1), .ack)) := by
  cases ho : overflows capacity b
  · by_cases hn : b.rvN = 3 <;> simp [rvDigitEffect, ho, hn]
  · exact .inl ⟨rfl, by simp [rvDigitEffect, ho, takeFault]⟩

theorem State.takeEvent_nil {s : State} (h : s.pending = []) : s.takeEvent = none := by
  simp [State.takeEvent, h]

theorem State.takeEvent_cons {s : State} {e : HostEvent} {rest : List HostEvent} (h : s.pending = e :: rest) :
    s.takeEvent = some (e, s.setPending rest) := by
  simp [State.takeEvent, h]

/-- Every meaning is one gated command. -/
theorem exec_eq (i : Instr) (s : State) : exec i s = .next (s.runCommand (commandEffect s.capacity i)) := by
  cases i <;> rfl

/-- A command that runs: its effect's block, and its effect's response. -/
theorem exec_of_none (i : Instr) {s : State} (h : s.block.fault = none) :
    exec i s = .next ((s.setBlock (commandEffect s.capacity i s.block).1).respond (commandEffect s.capacity i s.block).2) := by
  rw [exec_eq, State.runCommand_of_none _ h]

/-- A command that is refused: the earlier fault's code, and nothing else. -/
theorem exec_of_fault (i : Instr) {s : State} {c : FaultCause} (h : s.block.fault = some c) :
    exec i s = .next (s.respond (.err c)) := by
  rw [exec_eq, State.runCommand_of_fault _ h]

/-- Everything a step can do: idle, reset, run a legal command, or meet an illegal word. -/
theorem step_cases {s t : State} (h : step s = .next t) :
    (s.pending = [] ∧ t = s) ∨
    (∃ e rest, s.pending = e :: rest ∧ (e = .reset ∨ ∃ w, e = .resetWithCommand w) ∧
      t = (s.setPending rest).setBlock Block.reset) ∨
    (∃ w rest i, s.pending = .command w :: rest ∧ decode w = .command i ∧ exec i (s.setPending rest) = .next t) ∨
    (∃ w rest reason, s.pending = .command w :: rest ∧ decode w = .illegal reason ∧
      t = (s.setPending rest).runCommand (takeFault .illegalCommand)) := by
  cases hp : s.pending with
  | nil =>
    simp only [step, State.takeEvent_nil hp, State.idle] at h
    exact .inl ⟨rfl, by injection h with h; exact h.symm⟩
  | cons e rest =>
    simp only [step, State.takeEvent_cons hp] at h
    cases e with
    | reset => exact .inr (.inl ⟨_, rest, rfl, .inl rfl, by injection h with h; exact h.symm⟩)
    | resetWithCommand w => exact .inr (.inl ⟨_, rest, rfl, .inr ⟨w, rfl⟩, by injection h with h; exact h.symm⟩)
    | command w =>
      cases hd : decode w with
      | command i => exact .inr (.inr (.inl ⟨w, rest, i, rfl, hd, by simpa [hd] using h⟩))
      | illegal reason =>
        simp only [hd, State.illegalCommand] at h
        exact .inr (.inr (.inr ⟨w, rest, reason, rfl, hd, by injection h with h; exact h.symm⟩))

end Sys2Proof.Machine
end

