-- ==== Sys2Proof/Laws/PerInstr.lean ====
section
/-! SUPPORT. The fields of every command's word (30_encoding.md R32, R34): its opcode, and the reserved field 0. -/

namespace Sys2Proof.Laws.EncodedFields

/-- The word of `i` has the opcode of its row in `op` and 0b0000 in `rsv`. -/
def Statement (i : Instr) : Prop :=
  Machine.opField (encode i) = (opcodeRow i).op ∧ Machine.rsvField (encode i) = 0

theorem crcInit : Statement .crcInit := ⟨by decide, by decide⟩
theorem crcByte (b : Byte) : Statement (.crcByte b) := by
  revert b; unfold Statement Machine.opField Machine.rsvField encode opcodeRow; decide
theorem crcRead : Statement .crcRead := ⟨by decide, by decide⟩
theorem rvClear : Statement .rvClear := ⟨by decide, by decide⟩
theorem rvDigit (d : Digit) : Statement (.rvDigit d) := by
  revert d; unfold Statement Machine.opField Machine.rsvField encode opcodeRow; decide
theorem rvRead : Statement .rvRead := ⟨by decide, by decide⟩

end Sys2Proof.Laws.EncodedFields
end

