-- ==== Sys2Proof/Laws/Run.lean ====
section
/-! SUPPORT. Runs: the empty run, one event more, and the split of a run at any point; and the machine's own run, step by step. -/

namespace Sys2Proof.Machine

@[simp] theorem runProgram_nil (capacity : Capacity) (b : Block) : runProgram capacity b [] = ⟨b, []⟩ := rfl

theorem runProgram_cons (capacity : Capacity) (b : Block) (e : HostEvent) (es : List HostEvent) :
    runProgram capacity b (e :: es) =
      ⟨(runProgram capacity (eventOutcome capacity b e).final es).final,
        (eventOutcome capacity b e).responses ++ (runProgram capacity (eventOutcome capacity b e).final es).responses⟩ := rfl

/-- A run may be split anywhere: the second part starts from the first part's final state. -/
theorem runProgram_append (capacity : Capacity) (b : Block) (es fs : List HostEvent) :
    runProgram capacity b (es ++ fs) =
      ⟨(runProgram capacity (runProgram capacity b es).final fs).final,
        (runProgram capacity b es).responses ++ (runProgram capacity (runProgram capacity b es).final fs).responses⟩ := by
  induction es generalizing b with
  | nil => rfl
  | cons e es ih => simp only [List.cons_append, runProgram_cons, ih, List.append_assoc]

@[simp] theorem wordsOf_append (es fs : List HostEvent) : wordsOf (es ++ fs) = wordsOf es ++ wordsOf fs := by
  induction es with
  | nil => rfl
  | cons e es ih => cases e <;> simp [wordsOf, ih]

/-- A run answers each word that is executed once. -/
theorem runProgram_responses_length (capacity : Capacity) (b : Block) (es : List HostEvent) :
    (runProgram capacity b es).responses.length = (wordsOf es).length := by
  induction es generalizing b with
  | nil => rfl
  | cons e es ih => cases e <;> simp [runProgram_cons, eventOutcome, wordsOf, ih]

/-- No step of the machine is no change. -/
theorem core_run_zero (s : State) : core.run 0 s = .next s := rfl

/-- One step of the machine more: the rest is the run from the state the step leads to. -/
theorem core_run_succ {s t : State} (n : Nat) (h : step s = .next t) : core.run (n + 1) s = core.run n t := by
  have hs : core.step s = .next t := h
  exact (Host.Core.run.eq_2 core s n).trans (by rw [hs])

end Sys2Proof.Machine
end

