-- ==== Sys2Proof/Laws/Strings.lean ====
section
/-! SUPPORT. Strings of digits and the bits of words: how the words of a string grow with one more digit, and the lengths of
the bit sequences. -/

namespace Sys2Proof.Machine

@[simp] theorem bits16_length (w : Word) : (bits16 w).length = 16 := by simp [bits16]

@[simp] theorem digitBits_length (d : Digit) : (digitBits d).length = 4 := by simp [digitBits]

theorem flatMap_bits16_length (ws : List Word) : (ws.flatMap bits16).length = 16 * ws.length := by
  induction ws with
  | nil => rfl
  | cons w ws ih => simp only [List.flatMap_cons, List.length_append, bits16_length, ih, List.length_cons]; omega

@[simp] theorem digitsValue_nil : digitsValue [] = 0 := rfl

/-- One more digit: the number is multiplied by 16 and the digit added (R51). -/
theorem digitsValue_snoc (ds : List Digit) (d : Digit) : digitsValue (ds ++ [d]) = digitsValue ds * 16 + digitWord d := by
  simp [digitsValue]

/-- A group of at most four digits is below `16^k` (R10). -/
theorem digitsValue_lt (ds : List Digit) (h : ds.length ≤ 4) : (digitsValue ds).toNat < 16 ^ ds.length := by
  induction ds using List.reverseRecOn with
  | nil => simp
  | append_singleton ds d ih =>
    have hl : ds.length ≤ 3 := by simp only [List.length_append, List.length_singleton] at h; omega
    have hv := ih (by omega)
    have hd : (digitWord d).toNat = d.toNat := by
      simp only [digitWord, BitVec.toNat_setWidth]
      exact Nat.mod_eq_of_lt (by have := d.isLt; omega)
    have hp : 16 ^ ds.length ≤ 16 ^ 3 := Nat.pow_le_pow_right (by decide) hl
    have : d.toNat < 16 := d.isLt
    rw [digitsValue_snoc, BitVec.toNat_add, BitVec.toNat_mul, hd, List.length_append, List.length_singleton, Nat.pow_succ]
    have h16 : BitVec.toNat (16 : Word) = 16 := rfl
    rw [h16, Nat.mod_eq_of_lt (a := (digitsValue ds).toNat * 16) (by omega), Nat.mod_eq_of_lt (by omega)]
    omega

/-- The complete words do not change until a fourth digit completes one (R9, R10). -/
theorem completeWords_snoc (h : List Digit) (d : Digit) :
    completeWords (h ++ [d]) =
      completeWords h ++ if h.length % 4 = 3 then [digitsValue (h.drop (4 * (h.length / 4)) ++ [d])] else [] := by
  have hsame : ∀ j < h.length / 4, digitGroup (h ++ [d]) j = digitGroup h j := fun j hj => by
    have hj' : 4 * j + 4 ≤ h.length := by omega
    rw [digitGroup, digitGroup, List.drop_append_of_le_length (by omega),
      List.take_append_of_le_length (by simp only [List.length_drop]; omega)]
  have hmap : (List.range (h.length / 4)).map (fun j => digitsValue (digitGroup (h ++ [d]) j)) = completeWords h :=
    List.map_congr_left fun j hj => by rw [hsame j (List.mem_range.mp hj)]
  split
  · rename_i h3
    have hq : (h ++ [d]).length / 4 = h.length / 4 + 1 := by simp only [List.length_append, List.length_singleton]; omega
    rw [completeWords, hq, List.range_succ, List.map_append, hmap, List.map_singleton, digitGroup,
      List.drop_append_of_le_length (by omega), List.take_of_length_le
        (by simp only [List.length_append, List.length_drop, List.length_singleton]; omega)]
  · have hq : (h ++ [d]).length / 4 = h.length / 4 := by simp only [List.length_append, List.length_singleton]; omega
    rw [completeWords, hq, hmap, List.append_nil]

/-- The words of a string are its complete words and, when digits are left over, the partial word's number (R51, R59). -/
theorem stringWords_eq (h : List Digit) :
    stringWords h =
      completeWords h ++ if h.length % 4 = 0 then [] else [digitsValue (h.drop (4 * (h.length / 4)))] := by
  split
  · have hq : wordCount h = h.length / 4 := by rw [wordCount]; omega
    rw [stringWords, hq, completeWords, List.append_nil]
  · have hq : wordCount h = h.length / 4 + 1 := by rw [wordCount]; omega
    rw [stringWords, hq, List.range_succ, List.map_append, List.map_singleton, digitGroup, List.take_of_length_le
      (by simp only [List.length_drop]; omega)]
    rfl

end Sys2Proof.Machine
end

