-- ==== Sys2Proof/Tests/Slice0.lean ====
section
/-! SUPPORT. The package's own tests. Expected results are the spec's: words written out from 30_encoding.md R34, and the
values of 95_test_vectors.md. Then one theorem for each statement with hypotheses: a state and operands that meet them. -/

namespace Sys2Proof.Tests

open Sys2Proof.Machine

/-- The next state of an outcome. -/
def nextOf : Host.Outcome State Fault Refusal → Option State
  | .next s => some s
  | .fault _ => none
  | .refused _ => none

/-- A block with the bit-reversal unit empty and no fault. -/
def crcBlock (crc : Word) : Block := { Block.reset with crc := crc }

/-- A block with the reset value in `crc` and no fault. -/
def rvBlock (ws : List Word) (acc : Word) (n : Fin 4) : Block := { Block.reset with rvWords := ws, rvAcc := acc, rvN := n }

/-- A capacity of eight words, as the vectors of 95_test_vectors.md assume unless they say otherwise. -/
def cap8 : Capacity := .words 8 (by decide)

/-- A capacity of one word. -/
def cap1 : Capacity := .words 1 (by decide)

/-- A block at the command port, the host presenting `events`. -/
def at_ (capacity : Capacity) (b : Block) (events : List HostEvent) : State :=
  { State.resetWith capacity with block := b, pending := events }

/-- The block and the responses after one step. -/
def stepped (capacity : Capacity) (b : Block) (e : HostEvent) : Option (Block × List Response) :=
  (nextOf (step (at_ capacity b [e]))).map fun t => (t.block, t.responses)

/-! ## Decoding: words written out from R34's patterns, and V8 -/

theorem test_decode_crcInit : decode 0b0001000000000000 = .command .crcInit := by decide
theorem test_decode_crcByte : decode 0b0010000011100010 = .command (.crcByte 0xE2) := by decide
theorem test_decode_crcRead : decode 0b0011000000000000 = .command .crcRead := by decide
theorem test_decode_rvClear : decode 0b0100000000000000 = .command .rvClear := by decide
theorem test_decode_rvDigit : decode 0b0101000000001110 = .command (.rvDigit 0xE) := by decide
theorem test_decode_rvRead : decode 0b0110000000000000 = .command .rvRead := by decide
theorem test_decode_zero_word : decode 0x0000 = .illegal .unassignedOpcode := by decide
theorem test_decode_opcode_7 : decode 0x7000 = .illegal .unassignedOpcode := by decide
theorem test_decode_reserved_byte : decode 0x2100 = .illegal .reservedBits := by decide
theorem test_decode_init_operand : decode 0x1100 = .illegal .reservedBits := by decide
theorem test_decode_digit_high : decode 0x5010 = .illegal .operandBits := by decide
theorem test_decode_read_operand : decode 0x6001 = .illegal .operandBits := by decide
theorem test_encode_words : [encode (.crcByte 0x30), encode (.rvDigit 0xE), encode .rvRead] = [0x2030, 0x500E, 0x6000] := by decide
theorem test_table_word : decodeTableWord 16 0x20FF = some (.crcByte 0xFF) := by decide
theorem test_table_word_illegal : decodeTableWord 16 0x50FF = none := by decide

/-! ## Well-formedness: a word, or an assembler's operand, that each check refuses -/

theorem test_wf_legal : legalWord 0x500F = true := by decide
theorem test_wf_opcode_refused : opcodeAssigned 0x7000 = false ∧ opcodeAssigned 0x0030 = false := by decide
theorem test_wf_reserved_refused : reservedZero 0x2131 = false := by decide
theorem test_wf_operand_refused : operandFits 0x4080 = false ∧ operandFits 0x5010 = false := by decide
theorem test_wf_byte_refused : byteOperandFits 256 = false := by decide
theorem test_wf_digit_refused : digitOperandFits 16 = false := by decide
theorem test_wf_word_refused : wordOperandFits 65536 = false := by decide

/-! ## The functions: V1, V2, V5, V6 -/

theorem test_crcShift1_top_bit : [crcShift1 0x9021, crcShift1 0x4000] = [0x3063, 0x8000] := by decide
theorem test_crcByte_v2 : [crcByte 0x1234 0x56, crcByte 0xA5A5 0x5A] = [0x3C40, 0xBBF0] := by decide
theorem test_crc16_order : crc16 [0x12, 0x34] = 0xF136 ∧ crc16 [0x34, 0x12] = 0x19D2 := by decide +kernel
theorem test_crc16_reference :
    crc16 [0x30, 0x00, 0xE2, 0x80, 0x11, 0x60, 0x60, 0x00, 0x02, 0x11, 0xEB, 0xDD, 0x71, 0x75] = 0x98C3 := by
  decide +kernel
theorem test_crcTable_v5 : crcTable 0xCF = 0x28A3 ∧ crcByteTable 0xFFFF 0x30 = 0xD7A3 := by decide
theorem test_crcByteSerial_v2 : crcByteSerial 0xFFFF 0x80 = 0x7078 := by decide
theorem test_flip_two_words : bitsToDigits (flipBitOrder [0x0, 0x0, 0x0, 0x1, 0x0, 0x0, 0x0, 0x2]) =
    some [0x4, 0x0, 0x0, 0x0, 0x8, 0x0, 0x0, 0x0] := by decide
theorem test_flip_partial : bitsToDigits (flipBitOrder [0x1, 0x2]) = some [0x4, 0x8, 0x0, 0x0] := by decide

/-! ## One step: V3, V7, V9 -/

theorem test_crcInit : stepped cap8 (crcBlock 0x673C) (.command 0x1000) = some (crcBlock 0xFFFF, [.ack]) := by decide
theorem test_crcByte : stepped cap8 (crcBlock 0xD7A3) (.command 0x2000) = some (crcBlock 0x189A, [.ack]) := by decide
theorem test_crcRead : stepped cap8 (crcBlock 0x673C) (.command 0x3000) = some (crcBlock 0x673C, [.val16 0x98C3]) := by decide
theorem test_rvClear : stepped cap8 (rvBlock [0x1234] 0x0056 2) (.command 0x4000) = some (rvBlock [] 0 0, [.ack]) := by decide
theorem test_rvDigit_completes :
    stepped cap1 (rvBlock [] 0x0123 3) (.command 0x5004) = some (rvBlock [0x1234] 0 0, [.ack]) := by decide
theorem test_rvDigit_overflows : stepped cap1 (rvBlock [0x1234] 0 0) (.command 0x5005) =
    some ({ rvBlock [0x1234] 0 0 with fault := some .rvOverflow }, [.err .rvOverflow]) := by decide
theorem test_rvRead_partial : stepped cap8 (rvBlock [0x1234] 0x0005 1) (.command 0x6000) =
    some (rvBlock [0x1234] 0x0005 1, [.bitseq (bits16 0xA000 ++ bits16 0x2C48)]) := by decide
theorem test_illegal_word : stepped cap8 (crcBlock 0xD7A3) (.command 0x0000) =
    some ({ crcBlock 0xD7A3 with fault := some .illegalCommand }, [.err .illegalCommand]) := by decide
theorem test_first_fault_kept :
    stepped cap8 { crcBlock 0xD7A3 with fault := some .rvOverflow } (.command 0x7000) =
      some ({ crcBlock 0xD7A3 with fault := some .rvOverflow }, [.err .rvOverflow]) := by decide
theorem test_reset_clears_fault :
    stepped cap8 { rvBlock [0x1234] 5 1 with fault := some .rvOverflow } .reset = some (Block.reset, []) := by decide
theorem test_reset_wins : stepped cap8 (crcBlock 0x1234) (.resetWithCommand 0x3000) = some (Block.reset, []) := by decide

/-- Whatever the capacity, the machine runs a presented word as its first command after reset. -/
theorem test_first_command_after_reset :
    nextOf (step (State.reset.withFetchWord 16 0x3000)) = some { State.reset with responses := [.val16 0x0000] } := rfl

theorem test_first_digit_after_reset :
    (nextOf (step (State.reset.withFetchWord 16 0x5001))).map (·.block) = some (rvBlock [] 0x0001 1) := by decide

/-! ## Runs: R77, and the program P6 -/

/-- P6: an illegal word, refusals, a reset, a read; the final `fault` is NONE and the run has gone wrong. -/
theorem test_run_p6 :
    let o := runProgram cap8 Block.reset
      ([0x1000, 0x2030, 0x0000, 0x3000, 0x4000, 0x2131].map HostEvent.command ++ [.reset, .command 0x3000])
    o.final = Block.reset ∧ goneWrong o = true ∧
    o.responses = [.ack, .ack] ++ List.replicate 4 (.err .illegalCommand) ++ [.val16 0x0000] := by decide

/-- P5: after a reset the run without `CRC_INIT` or `RV_CLEAR` has not gone wrong. -/
theorem test_run_p5 :
    let o := runProgram cap8 (crcBlock 0x1234) (.reset :: [0x3000, 0x6000, 0x5001].map HostEvent.command)
    goneWrong o = false ∧ o.responses = [.val16 0x0000, .bitseq [], .ack] := by decide

/-! ## The assembler: R38, R39 -/

theorem test_assemble_lines : assemble "CRC_BYTE 0x30 ; a byte\nRV_DIGIT 14".toList = some [.crcByte 0x30, .rvDigit 0xE] := by
  decide
theorem test_assemble_refuses : assemble "RV_DIGIT 16".toList = none ∧ assemble "CRC_INIT 1".toList = none := by decide

/-! ## Witnesses: a state and operands that meet the hypotheses of each statement, each clause of it -/

/-- IllegalWordsTakeTheFault, at the first free opcode after the assigned ones. -/
theorem witness_illegal_word :
    (at_ cap1 (crcBlock 1) [.command 0x7000]).pending = .command 0x7000 :: [] ∧ decode 0x7000 = .illegal .unassignedOpcode ∧
    (at_ cap1 (crcBlock 1) [.command 0x7000]).block.fault = none := by decide

/-- StepRunsDecodedCommand, StepRealisesThePortFunction, OneResponsePerCommand, FaultPriority. -/
theorem witness_legal_word :
    (at_ cap1 (crcBlock 1) [.command 0x20FF, .reset]).pending = .command 0x20FF :: [.reset] ∧
    decode 0x20FF = .command (.crcByte 0xFF) := by decide

/-- IdleStepChangesNothing. -/
theorem witness_idle : (at_ cap1 (crcBlock 1) []).pending = [] := by decide

/-- OpcodeMapSelectsCommands: a word that decodes and selects a row. -/
theorem witness_row_selected :
    decode 0x500F = .command (.rvDigit 0xF) ∧ opcodeRow (.rvDigit 0xF) ∈ opcodeTable ∧
    (opcodeRow (.rvDigit 0xF)).selects 0x500F = true := by decide

/-- ResetSetsEveryComponent: both events. -/
theorem witness_reset_events : ∀ e ∈ [HostEvent.reset, .resetWithCommand 0x3000], e = .reset ∨ e = .resetWithCommand 0x3000 := by
  decide

/-- The six results, DataNeverFaults for a command other than RV_DIGIT, CommandsRealiseCrc16: no fault. -/
theorem witness_no_fault : (at_ cap1 (crcBlock 0x1234) []).block.fault = none := by decide

/-- The six results, FaultIsStickyUntilReset: an earlier fault, and a word presented. -/
theorem witness_faulted :
    (at_ cap1 { crcBlock 1 with fault := some .rvOverflow } [.command 0x4000]).block.fault = some .rvOverflow ∧
    (at_ cap1 { crcBlock 1 with fault := some .rvOverflow } [.command 0x4000]).pending = [.command 0x4000] := by decide

/-- ZeroByteChangesEveryOtherRegister, at the register that refutes it. -/
theorem witness_zero_byte : (crcBlock 0xF01F).fault = none ∧ (crcBlock 0xF01F).crc ≠ 0x0000 ∧ crcByte 0xF01F 0x00 = 0xF01F := by
  decide

/-- RvDigitResult, overflow: the first digit of a word with the one word held. -/
theorem witness_rvDigit_full :
    let s := at_ cap1 (rvBlock [0x1234] 0 0) []
    s.block.fault = none ∧ s.block.rvN = 0 ∧ ∃ n h, s.capacity = .words n h ∧ s.block.rvWords.length = n :=
  ⟨rfl, rfl, 1, by decide, rfl, rfl⟩

/-- RvDigitResult, the fourth digit. -/
theorem witness_rvDigit_fourth : (rvBlock [] 0x0123 3).fault = none ∧ (rvBlock [] 0x0123 3).rvN = 3 := by decide

/-- RvDigitResult, a first digit with one word of room left, and DataNeverFaults for RV_DIGIT. -/
theorem witness_rvDigit_first :
    let s := at_ cap1 (rvBlock [] 0 0) []
    s.block.fault = none ∧ (1 : Fin 4).val = s.block.rvN.val + 1 ∧
    ¬(s.block.rvN = 0 ∧ ∃ n h, s.capacity = .words n h ∧ s.block.rvWords.length = n) := by
  refine ⟨rfl, rfl, ?_⟩
  rintro ⟨-, n, h, hc, hl⟩
  cases hc
  cases hl

/-- RvDigitResult, a third digit with the buffer otherwise full. -/
theorem witness_rvDigit_third :
    let s := at_ cap1 (rvBlock [0x1234] 0x0012 2) []
    s.block.fault = none ∧ (3 : Fin 4).val = s.block.rvN.val + 1 ∧
    ¬(s.block.rvN = 0 ∧ ∃ n h, s.capacity = .words n h ∧ s.block.rvWords.length = n) := by
  exact ⟨rfl, rfl, fun h => absurd h.1 (by decide)⟩

/-- CommandFrames, UnitsDoNotInterfere, UnitsCommandsCommute: a command of each unit, and two states that differ only in the
other unit. -/
theorem witness_two_units :
    isCrcCommand (.crcByte 0x30) = true ∧ isCrcCommand (.rvDigit 0xF) = false ∧
    (rvBlock [0x1234] 0x0005 1).crc = (rvBlock [] 0 0).crc ∧ (rvBlock [0x1234] 0x0005 1).fault = (rvBlock [] 0 0).fault ∧
    rvBlock [0x1234] 0x0005 1 ≠ rvBlock [] 0 0 ∧
    (crcBlock 0x1234).rvWords = (crcBlock 0x5678).rvWords ∧ (crcBlock 0x1234).rvAcc = (crcBlock 0x5678).rvAcc ∧
    (crcBlock 0x1234).rvN = (crcBlock 0x5678).rvN ∧ (crcBlock 0x1234).fault = (crcBlock 0x5678).fault ∧
    crcBlock 0x1234 ≠ crcBlock 0x5678 := by decide

/-- UnitsCommandsCommute: an order in which no fault is taken. -/
theorem witness_commute : ∃ a ij, exec (.crcByte 0x30) (at_ cap1 (rvBlock [] 0x0012 2) []) = .next a ∧
    exec (.rvDigit 0x3) a = .next ij ∧ ij.block.fault = none := ⟨_, _, rfl, rfl, rfl⟩

/-- FaultsHaveTheirTwoCauses, FaultEntryIsPrecise: a step that takes each fault from a state without one. -/
theorem witness_fault_taken :
    (∃ t, step (at_ cap1 (crcBlock 1) [.command 0x0000]) = .next t ∧ t.block.fault = some .illegalCommand) ∧
    (∃ t, step (at_ cap1 (rvBlock [0x1234] 0 0) [.command 0x5005]) = .next t ∧ t.block.fault = some .rvOverflow) :=
  ⟨⟨_, rfl, rfl⟩, ⟨_, rfl, rfl⟩⟩

/-- FaultIsStickyUntilReset: a step from a faulted state. FaultPriority: a reset with a command. -/
theorem witness_faulted_step :
    ∃ t, step (at_ cap1 { crcBlock 1 with fault := some .illegalCommand } [.resetWithCommand 0x1000]) = .next t ∧
      t.block = Block.reset := ⟨_, rfl, rfl⟩

/-- BufferInvariantKept, at the edge: the capacity used up by a partial word, its digits all ones. -/
theorem witness_buffer_inv : BufferInv (at_ cap1 (rvBlock [] 0x0FFF 3) [.command 0x500F]) ∧
    ∃ t, step (at_ cap1 (rvBlock [] 0x0FFF 3) [.command 0x500F]) = .next t := ⟨by decide, _, rfl⟩

/-- CrcTracksTheMessage, ReadsAnswerTheFunctions, CommandsRealiseCrc16: a block that holds the message 0x30. -/
theorem witness_holds_message : HoldsMessage (crcBlock 0xD7A3) [0x30] ∧
    ∃ t, step (at_ cap1 (crcBlock 0xD7A3) [.command 0x2000]) = .next t ∧ t.block.fault = none :=
  ⟨by decide, _, rfl, rfl⟩

/-- BufferTracksTheString, ReadsAnswerTheFunctions: a block that holds the string 12345, the last word partial. -/
theorem witness_holds_string : HoldsString (rvBlock [0x1234] 0x0005 1) [0x1, 0x2, 0x3, 0x4, 0x5] ∧
    ∃ t, step (at_ cap8 (rvBlock [0x1234] 0x0005 1) [.command 0x5006]) = .next t ∧ t.block.fault = none :=
  ⟨by decide, _, rfl, rfl⟩

/-- CommandsRealiseFlipBitOrder: a string that just fits, and one with a word too many. -/
theorem witness_flip_room : hasRoom cap1 (wordCount [0x1, 0x2, 0x3, 0x4]) = true ∧
    1 < wordCount [0x1, 0x2, 0x3, 0x4, 0x5] ∧ cap1 = .words 1 (by decide) := by decide

/-- CommandsRealiseCrc16 and CommandsRealiseFlipBitOrder: programs of mixed commands, from the reset state of the block. -/
theorem witness_mixed_programs :
    .crcInit ∉ [Instr.crcByte 0x12, .rvDigit 0xA, .crcRead] ∧ .rvClear ∉ [Instr.crcByte 0x12, .rvDigit 0xA, .rvRead] ∧
    (at_ cap1 Block.reset []).block = Block.reset ∧ (at_ cap1 Block.reset []).block.fault = none := by decide

/-- CommandsRealiseCrc16: digits that fit beside the string already held, to the last word; CommandsRealiseFlipBitOrder: mixed
programs whose digits fit and do not fit. -/
theorem witness_mixed_room :
    .crcInit ∉ [Instr.crcByte 0x12, .rvDigit 0x2, .rvDigit 0x3] ∧ HoldsString (rvBlock [] 0x0001 1) [0x1] ∧
    hasRoom cap1 (wordCount ([0x1] ++ digitsOf [.crcByte 0x12, .rvDigit 0x2, .rvDigit 0x3])) = true ∧
    digitsOf [.crcByte 0x12, .rvClear] = [] ∧
    hasRoom cap1 (wordCount (digitsOf (rvWordProgram 0x1234 ++ [.crcByte 0x12]))) = true ∧
    hasRoom cap1 (wordCount (digitsOf (rvWordProgram 0x1234 ++ [.crcByte 0x12, .rvDigit 0x5]))) = false := by decide

/-- EveryRunEnds: a start without a fault, a faulted start with one word, and the word at an index. -/
theorem witness_runs : (crcBlock 1).fault = none ∧ [HostEvent.command 0x3000] ≠ [] ∧ [(0x3000 : Word)] ≠ [] ∧
    [(0x3000 : Word)][0]? = some 0x3000 := by decide

/-- RunEndsAtTheLastWord: a program with a reset in between, split before its last word. -/
theorem witness_run_with_reset :
    ([.command 0x0000, .reset] ++ [HostEvent.command 0x3000]) = [.command 0x0000, .reset] ++ .command 0x3000 :: [] ∧
    wordsOf [.command 0x0000, .reset] = [0x0000] ∧
    (runProgram cap8 Block.reset ([.command 0x0000, .reset] ++ [.command 0x3000])).responses =
      [.err .illegalCommand, .val16 0x0000] := by decide

/-- FlipPlacesEveryBit, DigitBitsInverse, FlipRoundTrip, FlipClosedForm, FlipPartialWord: strings of each length they ask for,
and indices at the ends of their ranges. -/
theorem witness_strings :
    4 ∣ [(0x1 : Digit), 0x2, 0x3, 0x4].length ∧ 15 < 4 * [(0x1 : Digit), 0x2, 0x3, 0x4].length ∧
    1 < ([(0x1 : Digit), 0x2, 0x3, 0x4, 0x5].length + 3) / 4 ∧ [(0x1 : Digit), 0x2, 0x3, 0x4, 0x5].length % 4 ≠ 0 ∧
    3 < 4 * ([(0x1 : Digit), 0x2, 0x3, 0x4, 0x5].length % 4) ∧ 4 * ([(0x1 : Digit), 0x2, 0x3, 0x4, 0x5].length % 4) ≤ 4 := by
  decide

/-- AssemblerOperandRanges: the last operand each command takes, and the first it does not. -/
theorem witness_operands :
    ["255", "256", "0xF", "0x10"].map (fun o => operandNumber o.toList) = [some 255, some 256, some 15, some 16] := by decide

end Sys2Proof.Tests
end

section
/-! PROOFS. The two units (10_state.md R19): what a command of one unit leaves in the other. -/

namespace Sys2Proof.Machine

/-- A CRC command writes `crc` alone, and its new value and its answer are functions of the old value alone (R19). -/
theorem commandEffect_of_isCrcCommand {i : Instr} (hi : isCrcCommand i = true) :
    ∃ (update : Word → Word) (answer : Word → Response), ∀ (capacity : Capacity) (b : Block),
      commandEffect capacity i b = (b.setCrc (update b.crc), answer b.crc) := by
  cases i with
  | crcInit => exact ⟨fun _ => crcInitValue, fun _ => .ack, fun _ _ => rfl⟩
  | crcByte d => exact ⟨fun r => crcByte r d, fun _ => .ack, fun _ _ => rfl⟩
  | crcRead => exact ⟨id, fun r => .val16 (r ^^^ crcXorOut), fun _ _ => rfl⟩
  | rvClear => cases hi
  | rvDigit d => cases hi
  | rvRead => cases hi

@[simp] theorem overflows_setCrc (capacity : Capacity) (b : Block) (v : Word) :
    overflows capacity (b.setCrc v) = overflows capacity b := rfl

theorem rvDigitEffect_setCrc (capacity : Capacity) (d : Digit) (b : Block) (v : Word) :
    rvDigitEffect capacity d (b.setCrc v) = ((rvDigitEffect capacity d b).1.setCrc v, (rvDigitEffect capacity d b).2) := by
  obtain ⟨ho, heff⟩ | ⟨ho, hn, heff⟩ | ⟨ho, hn, heff⟩ := rvDigitEffect_cases capacity d b <;> rw [heff]
  · simp only [rvDigitEffect, overflows_setCrc, ho, if_true]
    rfl
  · simp only [rvDigitEffect, overflows_setCrc, ho, Block.setCrc_rvN, hn, if_true]
    rfl
  · simp only [rvDigitEffect, overflows_setCrc, ho, Block.setCrc_rvN, hn, if_false]
    rfl

/-- An RV command does the same whatever `crc` holds, and leaves it so (R19). -/
theorem commandEffect_setCrc {i : Instr} (hi : isCrcCommand i = false) (capacity : Capacity) (b : Block) (v : Word) :
    commandEffect capacity i (b.setCrc v) =
      ((commandEffect capacity i b).1.setCrc v, (commandEffect capacity i b).2) := by
  cases i with
  | crcInit => cases hi
  | crcByte d => cases hi
  | crcRead => cases hi
  | rvClear => rfl
  | rvDigit d => exact rvDigitEffect_setCrc capacity d b v
  | rvRead => rfl

/-- The gate reads `fault` only, so it keeps `commandEffect_setCrc`. -/
theorem gated_setCrc_of_rv {i : Instr} (hi : isCrcCommand i = false) (capacity : Capacity) (b : Block) (v : Word) :
    gated (commandEffect capacity i) (b.setCrc v) =
      ((gated (commandEffect capacity i) b).1.setCrc v, (gated (commandEffect capacity i) b).2) := by
  obtain ⟨c, hf, hg⟩ | ⟨hf, hg⟩ := gated_cases (commandEffect capacity i) b
  · rw [hg, gated_of_fault _ (b := b.setCrc v) hf]
  · rw [hg, gated_of_none _ (b := b.setCrc v) hf, commandEffect_setCrc hi]

theorem gated_crc_of_rv {i : Instr} (hi : isCrcCommand i = false) (capacity : Capacity) (b : Block) :
    (gated (commandEffect capacity i) b).1.crc = b.crc :=
  congrArg (·.1.crc) (gated_setCrc_of_rv hi capacity b b.crc)

/-- A CRC command, gate included, leaves every component but `crc` (R19). -/
theorem gated_of_isCrcCommand {i : Instr} (hi : isCrcCommand i = true) (capacity : Capacity) (b : Block) :
    ∃ v, (gated (commandEffect capacity i) b).1 = b.setCrc v := by
  obtain ⟨update, answer, heff⟩ := commandEffect_of_isCrcCommand hi
  obtain ⟨c, -, hg⟩ | ⟨-, hg⟩ := gated_cases (commandEffect capacity i) b
  · exact ⟨b.crc, by rw [hg]; rfl⟩
  · exact ⟨update b.crc, by rw [hg, heff]⟩

/-- What a CRC command answers and leaves in `crc` and `fault` depends on those two components alone (R19). -/
theorem gated_congr_of_isCrcCommand {i : Instr} (hi : isCrcCommand i = true) (capacity capacity' : Capacity) {b b' : Block}
    (hcrc : b.crc = b'.crc) (hfault : b.fault = b'.fault) :
    (gated (commandEffect capacity i) b).2 = (gated (commandEffect capacity' i) b').2 ∧
    (gated (commandEffect capacity i) b).1.crc = (gated (commandEffect capacity' i) b').1.crc ∧
    (gated (commandEffect capacity i) b).1.fault = (gated (commandEffect capacity' i) b').1.fault := by
  obtain ⟨update, answer, heff⟩ := commandEffect_of_isCrcCommand hi
  obtain ⟨c, hf, hg⟩ | ⟨hf, hg⟩ := gated_cases (commandEffect capacity i) b
  · rw [hg, gated_of_fault _ (hfault.symm.trans hf)]
    exact ⟨rfl, hcrc, hfault⟩
  · rw [hg, gated_of_none _ (hfault.symm.trans hf), heff, heff, hcrc]
    exact ⟨rfl, rfl, hfault⟩

/-- Two blocks that agree on the bit-reversal unit and `fault` differ at most in `crc`. -/
theorem Block.eq_setCrc {b b' : Block} (hwords : b.rvWords = b'.rvWords) (hacc : b.rvAcc = b'.rvAcc) (hn : b.rvN = b'.rvN)
    (hfault : b.fault = b'.fault) : b' = b.setCrc b'.crc := by
  cases b
  cases b'
  simp_all [Block.setCrc]

/-- Settles O19: a CRC command is a `setCrc`, and an RV command keeps `crc`. -/
theorem commandFrames : Obligations.CommandFrames := by
  intro i s
  refine ⟨_, _, exec_eq i s, State.runCommand_responses .., rfl, rfl, fun hi => ?_, fun hi => ?_⟩
  · obtain ⟨v, hv⟩ := gated_of_isCrcCommand hi s.capacity s.block
    simp [hv]
  · exact gated_crc_of_rv hi s.capacity s.block

/-- Settles O20: a CRC command reads `crc` and `fault` alone, and an RV command does not see a change of `crc`. -/
theorem unitsDoNotInterfere : Obligations.UnitsDoNotInterfere := by
  constructor
  · intro i s s' hi hcrc hfault
    obtain ⟨hresp, hcrc', hfault'⟩ := gated_congr_of_isCrcCommand hi s.capacity s'.capacity hcrc hfault
    exact ⟨_, _, _, exec_eq i s, exec_eq i s', by rw [State.runCommand_responses, hresp], rfl, hcrc', hfault'⟩
  · intro i s s' hi hcap hwords hacc hn hfault
    have hgate := gated_setCrc_of_rv hi s.capacity s.block s'.block.crc
    rw [← Block.eq_setCrc hwords hacc hn hfault] at hgate
    refine ⟨_, _, _, exec_eq i s, exec_eq i s', rfl, ?_, ?_⟩ <;> simp [← hcap, hgate]

/-- Settles O21: behind the gate the CRC command is a `setCrc` of a function of `crc`, and the RV command neither reads nor
writes `crc`; a fault can only be the RV command's, and it is taken in both orders. -/
theorem unitsCommandsCommute : Obligations.UnitsCommandsCommute := by
  intro i j s hi hj hs
  obtain ⟨update, answer, heff⟩ := commandEffect_of_isCrcCommand hi
  have hcrc : ∀ b : Block, b.fault = none →
      gated (commandEffect s.capacity i) b = (b.setCrc (update b.crc), answer b.crc) := fun b hb => by
    rw [gated_of_none _ hb, heff]
  have hrv := gated_setCrc_of_rv hj s.capacity s.block (update s.block.crc)
  have hkeep := gated_crc_of_rv hj s.capacity s.block
  refine ⟨_, _, _, _, answer s.block.crc, (gated (commandEffect s.capacity j) s.block).2,
    exec_eq i s, exec_eq j _, exec_eq j s, exec_eq i _, ?_, fun hnone => ?_⟩
  · simp only [State.runCommand_block, State.runCommand_capacity, hcrc _ hs, hrv, Block.setCrc_fault]
    obtain ⟨v, hv⟩ := gated_of_isCrcCommand hi s.capacity (gated (commandEffect s.capacity j) s.block).1
    rw [hv, Block.setCrc_fault]
  · simp only [State.runCommand_block, State.runCommand_capacity, hcrc _ hs, hrv, Block.setCrc_fault] at hnone
    simp [hcrc _ hs, hrv, hcrc _ hnone, hkeep]

end Sys2Proof.Machine
end

section
/-! PROOFS. The bit-reversal unit's invariants: the bounds of its buffer (10_state.md R18), and the string it holds (R9,
R10, 41_bitrev.md R56). -/

namespace Sys2Proof.Machine

/-! ## One digit more -/

/-- The shifted accumulator has its low four bits clear, so `|` adds the digit: the number is multiplied by 16 and the digit
added (R54, R51). -/
theorem accWith_eq (acc : Word) (d : Digit) : accWith acc d = acc * 16 + digitWord d := by
  have hdisj : acc <<< 4 &&& digitWord d = 0 := by
    ext i hi
    by_cases h4 : i < 4
    · simp [h4]
    · simp [digitWord, BitVec.getLsbD_of_ge d i (by omega)]
  rw [accWith, ← BitVec.add_eq_or_of_and_eq_zero _ _ hdisj, BitVec.shiftLeft_eq_mul_twoPow]
  rfl

theorem accWith_digitsValue (ds : List Digit) (d : Digit) :
    accWith (digitsValue ds) d = digitsValue (ds ++ [d]) := by
  rw [accWith_eq, digitsValue_snoc]

theorem digitWord_toNat (d : Digit) : (digitWord d).toNat = d.toNat :=
  BitVec.toNat_setWidth_of_le (by decide)

theorem accWith_toNat_lt {acc : Word} {n : Nat} (h : acc.toNat < 16 ^ n) (d : Digit) :
    (accWith acc d).toNat < 16 ^ (n + 1) := by
  have hd : d.toNat < 16 := d.isLt
  calc (accWith acc d).toNat
      ≤ acc.toNat * 16 + d.toNat := by
        rw [accWith_eq, BitVec.toNat_add, BitVec.toNat_mul, digitWord_toNat]
        exact (Nat.mod_le ..).trans (Nat.add_le_add_right (Nat.mod_le ..) _)
    _ < 16 ^ n * 16 := by omega
    _ = 16 ^ (n + 1) := (pow_succ 16 n).symm

/-- `rv_n + 1` does not wrap round while the word is not at its last digit. -/
theorem rvN_succ_val {n : Fin 4} (h : n ≠ 3) : (n + 1).val = n.val + 1 :=
  Fin.val_add_one_of_lt (Fin.lt_last_iff_ne_last.mpr h)

/-! ## The bounds of R18 -/

theorem hasRoom_zero (capacity : Capacity) : hasRoom capacity 0 = true := by
  cases capacity <;> simp [hasRoom]

/-- A buffer within its capacity that is not full has room for one more word. -/
theorem hasRoom_succ {capacity : Capacity} {k : Nat} (h : hasRoom capacity k = true)
    (hfull : bufferFull capacity k = false) : hasRoom capacity (k + 1) = true := by
  cases capacity with
  | unbounded => rfl
  | words n hn =>
    have hne : k ≠ n := fun hk => by
      rw [(bufferFull_iff _ _).mpr ⟨n, hn, rfl, hk⟩] at hfull
      cases hfull
    simp only [hasRoom, decide_eq_true_eq] at h ⊢
    omega

/-- An empty buffer meets the bounds at every capacity. -/
theorem bufferInv_of_empty {s : State} (hwords : s.block.rvWords = []) (hacc : s.block.rvAcc = 0) (hn : s.block.rvN = 0) :
    BufferInv s := by
  simp [BufferInv, wordsHeld, hwords, hacc, hn, hasRoom_zero]

/-- A fourth digit turns the partial word into a complete one, so as many words are held as before; a digit before it opens a
word only where the overflow test has found room (R54). -/
theorem bufferInv_rvDigit {s : State} (h : BufferInv s) (d : Digit) :
    BufferInv (s.setBlock (rvDigitEffect s.capacity d s.block).1) := by
  obtain ⟨hacc, hroom⟩ := h
  obtain ⟨-, heff⟩ | ⟨-, hn, heff⟩ | ⟨hov, hn, heff⟩ := rvDigitEffect_cases s.capacity d s.block <;> rw [heff]
  · exact ⟨hacc, hroom⟩
  · refine ⟨by simp, ?_⟩
    simpa [wordsHeld, hn] using hroom
  · have hsucc := rvN_succ_val hn
    refine ⟨?_, ?_⟩
    · simpa [hsucc] using accWith_toNat_lt hacc d
    · have hheld : wordsHeld (s.block.setBuffer s.block.rvWords (accWith s.block.rvAcc d) (s.block.rvN + 1)) =
          s.block.rvWords.length + 1 := by simp [wordsHeld, Fin.lt_def, hsucc]
      simp only [State.setBlock_block, State.setBlock_capacity, hheld]
      by_cases h0 : s.block.rvN = 0
      · simp only [overflows, h0, beq_self_eq_true, Bool.true_and] at hov
        exact hasRoom_succ (by simpa [wordsHeld, h0] using hroom) hov
      · simpa [wordsHeld, Fin.pos_iff_ne_zero.mpr h0] using hroom

theorem bufferInv_commandEffect {s : State} (h : BufferInv s) (i : Instr) :
    BufferInv (s.setBlock (commandEffect s.capacity i s.block).1) := by
  cases i with
  | crcInit => exact h
  | crcByte d => exact h
  | crcRead => exact h
  | rvClear => exact bufferInv_of_empty rfl rfl rfl
  | rvDigit d => exact bufferInv_rvDigit h d
  | rvRead => exact h

/-- The gate either changes nothing or lets the effect through, so what the effect keeps the command keeps. -/
theorem bufferInv_runCommand {s : State} {effect : Block → Block × Response} (h : BufferInv s)
    (heff : BufferInv (s.setBlock (effect s.block).1)) : BufferInv (s.runCommand effect) := by
  cases hf : s.block.fault with
  | none => rw [State.runCommand_of_none effect hf]; exact heff
  | some c => rw [State.runCommand_of_fault effect hf]; exact h

/-- Settles O28, over the four things a step can do. -/
theorem bufferInvariantKept : Obligations.BufferInvariantKept := by
  intro s t hinv hstep
  obtain ⟨-, rfl⟩ | ⟨e, rest, -, -, rfl⟩ | ⟨w, rest, i, -, -, hexec⟩ | ⟨w, rest, reason, -, -, rfl⟩ := step_cases hstep
  · exact hinv
  · exact bufferInv_of_empty rfl rfl rfl
  · rw [exec_eq] at hexec
    cases hexec
    exact bufferInv_runCommand (s := s.setPending rest) hinv (bufferInv_commandEffect (s := s.setPending rest) hinv i)
  · exact bufferInv_runCommand (s := s.setPending rest) hinv hinv

/-- Settles O29. -/
theorem bufferInvariantAtReset : Obligations.BufferInvariantAtReset :=
  fun _ => bufferInv_of_empty rfl rfl rfl

/-! ## The string held -/

/-- The digits after the last complete word, with one digit more: none when it is a word's fourth (R10). -/
theorem partialDigits_snoc (h : List Digit) (d : Digit) :
    (h ++ [d]).drop (4 * ((h ++ [d]).length / 4)) =
      if h.length % 4 = 3 then [] else h.drop (4 * (h.length / 4)) ++ [d] := by
  have hlen : (h ++ [d]).length = h.length + 1 := by simp
  split
  · exact List.drop_eq_nil_of_le (by omega)
  · rw [show (h ++ [d]).length / 4 = h.length / 4 by omega, List.drop_append_of_le_length (by omega)]

theorem holdsString_nil_of_empty {b : Block} (hwords : b.rvWords = []) (hacc : b.rvAcc = 0) (hn : b.rvN = 0) :
    HoldsString b [] :=
  ⟨hwords, by rw [hn]; rfl, hacc⟩

/-- An `RV_DIGIT` that takes no fault adds its digit to the string held: a fourth digit closes the word, another extends the
partial word's number (R54, R56). -/
theorem holdsString_rvDigit {b : Block} {h : List Digit} (hh : HoldsString b h) (capacity : Capacity) (d : Digit)
    (hnone : (rvDigitEffect capacity d b).1.fault = none) : HoldsString (rvDigitEffect capacity d b).1 (h ++ [d]) := by
  obtain ⟨hwords, hcount, hacc⟩ := hh
  obtain ⟨-, heff⟩ | ⟨-, hn, heff⟩ | ⟨-, hn, heff⟩ := rvDigitEffect_cases capacity d b <;> rw [heff] at hnone ⊢
  · cases hnone
  · have h3 : h.length % 4 = 3 := by rw [← hcount, hn]; rfl
    refine ⟨?_, ?_, ?_⟩
    · rw [Block.setBuffer_rvWords, completeWords_snoc, if_pos h3, hwords, hacc, accWith_digitsValue]
    · rw [Block.setBuffer_rvN, List.length_append, List.length_singleton, Fin.val_zero]
      omega
    · rw [Block.setBuffer_rvAcc, partialDigits_snoc, if_pos h3, digitsValue_nil]
  · have h3 : h.length % 4 ≠ 3 := fun h3 => hn (Fin.ext (hcount.trans h3))
    refine ⟨?_, ?_, ?_⟩
    · rw [Block.setBuffer_rvWords, completeWords_snoc, if_neg h3, List.append_nil, hwords]
    · rw [Block.setBuffer_rvN, rvN_succ_val hn, hcount, List.length_append, List.length_singleton]
      omega
    · rw [Block.setBuffer_rvAcc, partialDigits_snoc, if_neg h3, hacc, accWith_digitsValue]

/-- A command that runs without a fault leaves the string that `stringAfter` says (R56). -/
theorem holdsString_commandEffect {b : Block} {h : List Digit} (hh : HoldsString b h) (capacity : Capacity) {w : Word}
    {i : Instr} (hd : decode w = .command i) (hnone : (commandEffect capacity i b).1.fault = none) :
    HoldsString (commandEffect capacity i b).1 (stringAfter h (.command w)) := by
  cases i <;> simp only [stringAfter, hd]
  case crcInit => exact hh
  case crcByte d => exact hh
  case crcRead => exact hh
  case rvClear => exact holdsString_nil_of_empty rfl rfl rfl
  case rvDigit d => exact holdsString_rvDigit hh capacity d hnone
  case rvRead => exact hh

/-- A command that leaves no fault found none, and so had its effect. -/
theorem gated_eq_of_fault_none {effect : Block → Block × Response} {b : Block} (h : (gated effect b).1.fault = none) :
    gated effect b = effect b := by
  obtain ⟨c, hf, hg⟩ | ⟨-, hg⟩ := gated_cases effect b
  · rw [hg, hf] at h
    cases h
  · exact hg

/-- Settles O31, over the four things a step can do. -/
theorem bufferTracksTheString : Obligations.BufferTracksTheString := by
  intro s t e rest h hpend hh hstep hnone
  obtain ⟨hnil, -⟩ | ⟨e', rest', hp, he, rfl⟩ | ⟨w, rest', i, hp, hd, hexec⟩ | ⟨w, rest', reason, hp, hd, rfl⟩ :=
    step_cases hstep
  · rw [hnil] at hpend
    cases hpend
  · cases hpend.symm.trans hp
    obtain rfl | ⟨w, rfl⟩ := he <;> exact holdsString_nil_of_empty rfl rfl rfl
  · cases hpend.symm.trans hp
    rw [exec_eq] at hexec
    cases hexec
    rw [State.runCommand_block] at hnone ⊢
    have hran := gated_eq_of_fault_none hnone
    rw [hran] at hnone ⊢
    exact holdsString_commandEffect hh s.capacity hd hnone
  · rw [State.runCommand_block, gated_eq_of_fault_none hnone] at hnone
    cases hnone

end Sys2Proof.Machine
end

section
/-! PROOFS. The values after reset (10_state.md R17). -/

namespace Sys2Proof.Machine

/-- Settles O10. -/
theorem resetValues : Obligations.ResetValues :=
  ⟨rfl, rfl, rfl, rfl, rfl⟩

end Sys2Proof.Machine
end

section
/-! PROOFS. How a command is taken from the port (20_memory.md R28), and which commands may be repeated (R29). -/

namespace Sys2Proof.Machine

theorem step_of_command {s : State} {w : Word} {rest : List HostEvent} {i : Instr} (hp : s.pending = .command w :: rest)
    (hd : decode w = .command i) : step s = exec i (s.setPending rest) := by
  simp only [step, State.takeEvent_cons hp, hd]

/-- Settles O6. -/
theorem stepRunsDecodedCommand : Obligations.StepRunsDecodedCommand :=
  fun _ _ _ _ hp hd => step_of_command hp hd

/-! ## Repeating a command -/

/-- The gate adds no write of its own: behind it, an effect that keeps the block still keeps it. -/
theorem gated_block_of_keeps {effect : Block → Block × Response} (h : ∀ b, (effect b).1 = b) (b : Block) :
    (gated effect b).1 = b := by
  obtain ⟨c, -, hg⟩ | ⟨-, hg⟩ := gated_cases effect b
  · rw [hg]
  · rw [hg, h]

/-- The second time, the gate refuses and nothing changes, or the effect is repeated. -/
theorem gated_block_idem {effect : Block → Block × Response} (h : ∀ b, (effect (effect b).1).1 = (effect b).1) (b : Block) :
    (gated effect (gated effect b).1).1 = (gated effect b).1 := by
  obtain ⟨c, hf, hg⟩ | ⟨-, hg⟩ := gated_cases effect b
  · rw [hg, gated_of_fault effect hf]
  · rw [hg]
    obtain ⟨c, -, hg'⟩ | ⟨-, hg'⟩ := gated_cases effect (effect b).1
    · rw [hg']
    · rw [hg', h]

/-- A command that never writes the block answers the same when it is repeated (R29). -/
theorem exec_twice_of_keeps {i : Instr} (h : ∀ capacity b, (commandEffect capacity i b).1 = b) (s : State) :
    ∃ r t u, exec i s = .next t ∧ exec i t = .next u ∧ t.block = s.block ∧ u.block = s.block ∧
      t.responses = s.responses ++ [r] ∧ u.responses = s.responses ++ [r, r] := by
  have hkeep := gated_block_of_keeps (h s.capacity) s.block
  refine ⟨_, _, _, exec_eq i s, exec_eq i _, hkeep, ?_, State.runCommand_responses .., ?_⟩ <;> simp [hkeep]

/-- A command whose effect on the block is idempotent changes nothing the second time (R29). -/
theorem exec_twice_of_idem {i : Instr}
    (h : ∀ capacity b, (commandEffect capacity i (commandEffect capacity i b).1).1 = (commandEffect capacity i b).1)
    (s : State) : ∃ t u, exec i s = .next t ∧ exec i t = .next u ∧ u.block = t.block :=
  ⟨_, _, exec_eq i s, exec_eq i _, gated_block_idem (h s.capacity) s.block⟩

/-- `CRC_BYTE` behind the gate writes `crc` alone (R44). -/
theorem commandEffect_crcByte (capacity : Capacity) (d : Byte) (b : Block) :
    commandEffect capacity (.crcByte d) b = (b.setCrc (crcByte b.crc d), .ack) := rfl

theorem crcByte_new_message : crcByte 0xFFFF 0x30 = 0xD7A3 := by decide

/-- The byte 0x30 given twice to a new message does not leave what the byte given once leaves. -/
theorem crcByte_twice_ne : crcByte (crcByte 0xFFFF 0x30) 0x30 ≠ crcByte 0xFFFF 0x30 := by
  rw [crcByte_new_message]
  decide

/-- Settles O18: the reads keep the block, and `CRC_INIT` and `RV_CLEAR` write constants; each feed, given twice right after
reset, changes its unit twice. -/
theorem idempotentCommands : Obligations.IdempotentCommands := by
  refine ⟨fun s i hi => ?_, fun s i hi => ?_,
    ⟨State.resetWith .unbounded, _, _, exec_of_none _ rfl, exec_of_none _ rfl,
      fun h => crcByte_twice_ne (by simpa [commandEffect_crcByte, State.resetWith, Block.reset] using congrArg Block.crc h)⟩,
    ⟨State.resetWith .unbounded, _, _, exec_of_none _ rfl, exec_of_none _ rfl,
      fun h => absurd (congrArg Block.rvN h) (by decide)⟩⟩
  · obtain rfl | rfl : i = .crcRead ∨ i = .rvRead := by simpa using hi
    · exact exec_twice_of_keeps (fun _ _ => rfl) s
    · exact exec_twice_of_keeps (fun _ _ => rfl) s
  · obtain rfl | rfl : i = .crcInit ∨ i = .rvClear := by simpa using hi
    · exact exec_twice_of_idem (fun _ _ => rfl) s
    · exact exec_twice_of_idem (fun _ _ => rfl) s

end Sys2Proof.Machine
end

section
/-! PROOFS. The decoder, the encoder and the opcode map (30_encoding.md R34), by the fields of a word (R32). -/

namespace Sys2Proof.Machine

/-! ## The fields of a word -/

/-- The three fields cover the word. -/
theorem word_eq_append_fields (w : Word) : w = opField w ++ rsvField w ++ opdField w := by
  have hhigh : opField w ++ rsvField w = w.extractLsb' 8 8 :=
    BitVec.extractLsb'_append_extractLsb'_eq_extractLsb' (start₁ := 8) (len₁ := 4) rfl
  have hall : w.extractLsb' 8 8 ++ opdField w = w.extractLsb' 0 16 :=
    BitVec.extractLsb'_append_extractLsb'_eq_extractLsb' (start₁ := 0) (len₁ := 8) rfl
  rw [hhigh, hall, BitVec.extractLsb'_eq_self]

theorem word_ext {w v : Word} (hop : opField w = opField v) (hrsv : rsvField w = rsvField v)
    (hopd : opdField w = opdField v) : w = v := by
  rw [word_eq_append_fields w, hop, hrsv, hopd, ← word_eq_append_fields]

theorem opdField_eq_append (w : Word) : opdField w = opdHigh w ++ imm4 w :=
  (BitVec.extractLsb'_append_extractLsb'_eq_extractLsb' (start₁ := 0) (len₁ := 4) rfl).symm

/-- The operand field is one digit when its high half is 0 (R32, R33). -/
theorem opdField_eq_setWidth_iff (w : Word) (d : Digit) :
    opdField w = d.setWidth 8 ↔ opdHigh w = 0 ∧ imm4 w = d := by
  have hd : d.setWidth 8 = (0 : BitVec 4) ++ d := BitVec.setWidth_eq_append (by decide)
  rw [hd, opdField_eq_append]
  constructor
  · intro h
    have hhigh := congrArg (BitVec.extractLsb' 4 4) h
    have hlow := congrArg (BitVec.extractLsb' 0 4) h
    rw [BitVec.extractLsb'_append_eq_left, BitVec.extractLsb'_append_eq_left] at hhigh
    rw [BitVec.extractLsb'_append_eq_right, BitVec.extractLsb'_append_eq_right] at hlow
    exact ⟨hhigh, hlow⟩
  · rintro ⟨hhigh, hlow⟩
    rw [hhigh, hlow]

/-- The operand field of a command's word: the byte, the digit, or 0x00 (R32, R33). -/
def operandField : Instr → Byte
  | .crcInit => 0
  | .crcByte b => b
  | .crcRead => 0
  | .rvClear => 0
  | .rvDigit d => d.setWidth 8
  | .rvRead => 0

theorem encodedFields (i : Instr) : Laws.EncodedFields.Statement i := by
  cases i with
  | crcInit => exact Laws.EncodedFields.crcInit
  | crcByte b => exact Laws.EncodedFields.crcByte b
  | crcRead => exact Laws.EncodedFields.crcRead
  | rvClear => exact Laws.EncodedFields.rvClear
  | rvDigit d => exact Laws.EncodedFields.rvDigit d
  | rvRead => exact Laws.EncodedFields.rvRead

theorem opdField_encode (i : Instr) : opdField (encode i) = operandField i := by
  cases i with
  | crcInit => rfl
  | crcByte b => revert b; unfold opdField encode operandField; decide
  | crcRead => rfl
  | rvClear => rfl
  | rvDigit d => revert d; unfold opdField encode operandField; decide
  | rvRead => rfl

/-- A word is a command's encoding when its three fields are the command's. -/
theorem eq_encode_iff (w : Word) (i : Instr) :
    w = encode i ↔ rsvField w = 0 ∧ opField w = (opcodeRow i).op ∧ opdField w = operandField i := by
  obtain ⟨hop, hrsv⟩ := encodedFields i
  constructor
  · rintro rfl
    exact ⟨hrsv, hop, opdField_encode i⟩
  · rintro ⟨hrsv', hop', hopd'⟩
    exact word_ext (hop'.trans hop.symm) (hrsv'.trans hrsv.symm) (hopd'.trans (opdField_encode i).symm)

/-! ## Decoding and encoding -/

/-- The decoder's tests for a command are that the word's fields are the command's (R34). -/
theorem decode_eq_command_iff (w : Word) (i : Instr) :
    decode w = .command i ↔ rsvField w = 0 ∧ opField w = (opcodeRow i).op ∧ opdField w = operandField i := by
  constructor
  · intro h
    simp only [decode] at h
    split_ifs at h with hrsv h1 h2 h3 h4 h5 h6 <;> cases h
    · exact ⟨not_not.mp hrsv, h1⟩
    · exact ⟨not_not.mp hrsv, h2, rfl⟩
    · exact ⟨not_not.mp hrsv, h3⟩
    · exact ⟨not_not.mp hrsv, h4⟩
    · exact ⟨not_not.mp hrsv, h5.1, (opdField_eq_setWidth_iff w _).mpr ⟨h5.2, rfl⟩⟩
    · exact ⟨not_not.mp hrsv, h6⟩
  · rintro ⟨hrsv, hop, hopd⟩
    cases i <;> simp only [opcodeRow, operandField] at hop hopd
    case crcInit => simp [decode, hrsv, hop, hopd]
    case crcByte b => simp [decode, hrsv, hop, imm8, hopd]
    case crcRead => simp [decode, hrsv, hop, hopd]
    case rvClear => simp [decode, hrsv, hop, hopd]
    case rvDigit d =>
      obtain ⟨hhigh, hlow⟩ := (opdField_eq_setWidth_iff w d).mp hopd
      simp [decode, hrsv, hop, hhigh, hlow]
    case rvRead => simp [decode, hrsv, hop, hopd]

/-- Settles O1: both sides say that the word's fields are the command's. -/
theorem decodeInvertsEncode : Obligations.DecodeInvertsEncode :=
  fun w i => (decode_eq_command_iff w i).trans (eq_encode_iff w i).symm

theorem decode_encode (i : Instr) : decode (encode i) = .command i :=
  (decodeInvertsEncode _ _).mpr rfl

theorem encode_injective : Function.Injective encode := fun i j h => by
  have hij : decode (encode i) = .command j := (decodeInvertsEncode _ _).mpr h
  rw [decode_encode] at hij
  injection hij

/-- A word decodes to a command when it is some command's encoding. -/
theorem exists_decode_iff (w : Word) : (∃ i, decode w = .command i) ↔ ∃ i, encode i = w :=
  exists_congr fun i => (decodeInvertsEncode w i).trans eq_comm

/-! ## The opcode map -/

theorem mem_opcodeTable_iff (r : OpcodeRow) : r ∈ opcodeTable ↔ ∃ i, opcodeRow i = r := by
  constructor
  · intro h
    simp only [opcodeTable, List.mem_cons, List.not_mem_nil, or_false] at h
    obtain rfl | rfl | rfl | rfl | rfl | rfl := h <;> exact ⟨_, rfl⟩
  · rintro ⟨i, rfl⟩
    cases i <;> simp [opcodeTable, opcodeRow]

/-- What the row of `CRC_BYTE` masks out of a word is the operand field (R34). -/
theorem word_eq_or_opdField (w : Word) : w = (w &&& 0xFF00) ||| (opdField w).setWidth 16 := by
  ext i hi
  interval_cases i <;> simp [opdField]

/-- What the row of `RV_DIGIT` masks out of a word is the digit (R34). -/
theorem word_eq_or_imm4 (w : Word) : w = (w &&& 0xFFF0) ||| (imm4 w).setWidth 16 := by
  ext i hi
  interval_cases i <;> simp [imm4]

theorem opcodeRow_selects_encode (i : Instr) : (opcodeRow i).selects (encode i) = true := by
  cases i with
  | crcInit => rfl
  | crcByte b => revert b; unfold OpcodeRow.selects opcodeRow encode; decide
  | crcRead => rfl
  | rvClear => rfl
  | rvDigit d => revert d; unfold OpcodeRow.selects opcodeRow encode; decide
  | rvRead => rfl

/-- The words that select a command's row are the encodings of the commands of that row (R34). -/
theorem opcodeRow_selects_iff (i : Instr) (w : Word) :
    (opcodeRow i).selects w = true ↔ ∃ j, opcodeRow j = opcodeRow i ∧ encode j = w := by
  have hfull : w &&& 0xFFFF = w := BitVec.and_allOnes
  constructor
  · intro h
    rw [OpcodeRow.selects, beq_iff_eq] at h
    cases i <;> simp only [opcodeRow] at h
    case crcInit => exact ⟨.crcInit, rfl, h.symm.trans hfull⟩
    case crcByte b => exact ⟨.crcByte (opdField w), rfl, by rw [encode, ← h]; exact (word_eq_or_opdField w).symm⟩
    case crcRead => exact ⟨.crcRead, rfl, h.symm.trans hfull⟩
    case rvClear => exact ⟨.rvClear, rfl, h.symm.trans hfull⟩
    case rvDigit d => exact ⟨.rvDigit (imm4 w), rfl, by rw [encode, ← h]; exact (word_eq_or_imm4 w).symm⟩
    case rvRead => exact ⟨.rvRead, rfl, h.symm.trans hfull⟩
  · rintro ⟨j, hrow, rfl⟩
    rw [← hrow]
    exact opcodeRow_selects_encode j

/-! ## Legal words -/

theorem opcodeAssigned_iff (w : Word) :
    opcodeAssigned w = true ↔ opField w = 0x1 ∨ opField w = 0x2 ∨ opField w = 0x3 ∨ opField w = 0x4 ∨ opField w = 0x5 ∨
      opField w = 0x6 := by
  rw [opcodeAssigned]
  generalize opField w = op
  revert op
  decide

/-- The checks of a legal word are the decoder's (R34, R35). -/
theorem exists_decode_iff_legalWord (w : Word) : (∃ i, decode w = .command i) ↔ legalWord w = true := by
  simp only [decode_eq_command_iff, legalWord, reservedZero, Bool.and_eq_true, opcodeAssigned_iff, beq_iff_eq]
  constructor
  · rintro ⟨i, hrsv, hop, hopd⟩
    cases i <;> simp only [opcodeRow, operandField] at hop hopd
    case rvDigit d =>
      obtain ⟨hhigh, -⟩ := (opdField_eq_setWidth_iff w d).mp hopd
      simp [operandFits, hrsv, hop, hhigh]
    all_goals simp [operandFits, hrsv, hop, hopd]
  · rintro ⟨⟨hop, hrsv⟩, hfits⟩
    obtain hop | hop | hop | hop | hop | hop := hop <;> simp [operandFits, hop] at hfits
    · exact ⟨.crcInit, hrsv, hop, hfits⟩
    · exact ⟨.crcByte (opdField w), hrsv, hop, rfl⟩
    · exact ⟨.crcRead, hrsv, hop, hfits⟩
    · exact ⟨.rvClear, hrsv, hop, hfits⟩
    · exact ⟨.rvDigit (imm4 w), hrsv, hop, (opdField_eq_setWidth_iff w _).mpr ⟨hfits, rfl⟩⟩
    · exact ⟨.rvRead, hrsv, hop, hfits⟩

/-- Settles O2: a row is selected by the encodings of its own commands alone, and a word encodes one command. -/
theorem opcodeMapSelectsCommands : Obligations.OpcodeMapSelectsCommands := by
  intro w
  refine ⟨?_, exists_decode_iff_legalWord w, fun i hd => ?_, fun r hr r' hr' hs hs' => ?_⟩
  · rw [exists_decode_iff]
    constructor
    · rintro ⟨i, rfl⟩
      exact ⟨opcodeRow i, (mem_opcodeTable_iff _).mpr ⟨i, rfl⟩, opcodeRow_selects_encode i⟩
    · rintro ⟨r, hr, hs⟩
      obtain ⟨i, rfl⟩ := (mem_opcodeTable_iff r).mp hr
      obtain ⟨j, -, hj⟩ := (opcodeRow_selects_iff i w).mp hs
      exact ⟨j, hj⟩
  · obtain ⟨-, hop, -⟩ := (decode_eq_command_iff w i).mp hd
    exact ⟨(mem_opcodeTable_iff _).mpr ⟨i, rfl⟩,
      (opcodeRow_selects_iff i w).mpr ⟨i, rfl, ((decodeInvertsEncode w i).mp hd).symm⟩, hop.symm⟩
  · obtain ⟨i, rfl⟩ := (mem_opcodeTable_iff r).mp hr
    obtain ⟨i', rfl⟩ := (mem_opcodeTable_iff r').mp hr'
    obtain ⟨j, hrow, hj⟩ := (opcodeRow_selects_iff i w).mp hs
    obtain ⟨j', hrow', hj'⟩ := (opcodeRow_selects_iff i' w).mp hs'
    rw [← hrow, ← hrow', encode_injective (hj.trans hj'.symm)]

/-! ## The count of the legal words -/

/-- Every command with every operand, once: 4 without operand, 256 bytes, 16 digits. -/
def allCommands : List Instr :=
  [.crcInit, .crcRead, .rvClear, .rvRead] ++ (List.finRange 256).map (fun n => .crcByte (.ofFin n)) ++
    (List.finRange 16).map (fun n => .rvDigit (.ofFin n))

theorem mem_allCommands (i : Instr) : i ∈ allCommands := by
  cases i with
  | crcInit => simp [allCommands]
  | crcByte b => simp only [allCommands, List.mem_append, List.mem_map]; exact .inl (.inr ⟨b.toFin, List.mem_finRange _, rfl⟩)
  | crcRead => simp [allCommands]
  | rvClear => simp [allCommands]
  | rvDigit d => simp only [allCommands, List.mem_append, List.mem_map]; exact .inr ⟨d.toFin, List.mem_finRange _, rfl⟩
  | rvRead => simp [allCommands]

theorem allCommands_nodup : allCommands.Nodup := by
  have hbytes : ((List.finRange 256).map fun n => Instr.crcByte (.ofFin n)).Nodup :=
    (List.nodup_finRange 256).map fun m n h => by injection h with h; injection h
  have hdigits : ((List.finRange 16).map fun n => Instr.rvDigit (.ofFin n)).Nodup :=
    (List.nodup_finRange 16).map fun m n h => by injection h with h; injection h
  refine List.nodup_append'.mpr ⟨List.nodup_append'.mpr ⟨by decide, hbytes, ?_⟩, hdigits, ?_⟩
  · simp [List.Disjoint]
  · simp [List.Disjoint]

/-- Settles O3, by the encodings of every command with every operand. -/
theorem legalWordsNumber276 : Obligations.LegalWordsNumber276 := by
  refine ⟨allCommands.map encode, by simp [allCommands], allCommands_nodup.map encode_injective, fun w => ?_⟩
  simp [exists_decode_iff, mem_allCommands]

end Sys2Proof.Machine
end

section
/-! PROOFS. A word presented at the port: R37's step function, an illegal word (30_encoding.md R35), and the response. -/

namespace Sys2Proof.Machine

/-! ## The illegal words -/

theorem exists_illegal_iff (w : Word) : (∃ reason, decode w = .illegal reason) ↔ legalWord w = false := by
  rw [← Bool.not_eq_true, ← exists_decode_iff_legalWord]
  cases decode w <;> simp

theorem opcodeAssigned_eq_false_iff (w : Word) :
    opcodeAssigned w = false ↔ opField w = 0x0 ∨ 0x7 ≤ (opField w).toNat := by
  rw [opcodeAssigned]
  generalize opField w = op
  revert op
  decide

/-- The operand field holds what the command of an assigned opcode does not allow (R35). -/
theorem operandFits_eq_false_iff {w : Word} (h : opcodeAssigned w = true) :
    operandFits w = false ↔
      ((opField w = 0x1 ∨ opField w = 0x3 ∨ opField w = 0x4 ∨ opField w = 0x6) ∧ opdField w ≠ 0) ∨
      (opField w = 0x5 ∧ opdHigh w ≠ 0) := by
  obtain hop | hop | hop | hop | hop | hop := (opcodeAssigned_iff w).mp h <;> simp [operandFits, hop]

theorem legalWord_eq_false_iff (w : Word) :
    legalWord w = false ↔
      (opField w = 0x0 ∨ 0x7 ≤ (opField w).toNat ∨ rsvField w ≠ 0 ∨
        ((opField w = 0x1 ∨ opField w = 0x3 ∨ opField w = 0x4 ∨ opField w = 0x6) ∧ opdField w ≠ 0) ∨
        (opField w = 0x5 ∧ opdHigh w ≠ 0)) := by
  rw [← or_assoc, ← opcodeAssigned_eq_false_iff, legalWord, reservedZero]
  cases ha : opcodeAssigned w with
  | false => simp
  | true =>
    rw [← operandFits_eq_false_iff ha]
    simp [imp_iff_not_or]

/-! ## R37's step function -/

theorem commandStep_of_command (capacity : Capacity) (b : Block) {w : Word} {i : Instr} (hd : decode w = .command i) :
    commandStep capacity b w = gated (commandEffect capacity i) b := by
  simp only [commandStep, hd]

theorem commandStep_of_illegal (capacity : Capacity) (b : Block) {w : Word} {reason : IllegalReason}
    (hd : decode w = .illegal reason) : commandStep capacity b w = gated (takeFault .illegalCommand) b := by
  simp only [commandStep, hd]

/-- The machine's step on a presented word is the step function of R37, at the port. -/
theorem step_of_word {s : State} {w : Word} {rest : List HostEvent} (hp : s.pending = .command w :: rest) :
    step s = .next (((s.setPending rest).setBlock (commandStep s.capacity s.block w).1).respond
      (commandStep s.capacity s.block w).2) := by
  cases hd : decode w with
  | command i =>
    rw [step_of_command hp hd, exec_eq, commandStep_of_command s.capacity s.block hd]
    rfl
  | illegal reason =>
    rw [commandStep_of_illegal s.capacity s.block hd]
    simp only [step, State.takeEvent_cons hp, hd]
    rfl

/-- Settles O7. -/
theorem stepRealisesThePortFunction : Obligations.StepRealisesThePortFunction :=
  fun _ _ _ hp => step_of_word hp

/-- Settles O4: a word is illegal when it fails a check of a legal word, and without a fault the gate lets the fault be taken. -/
theorem illegalWordsTakeTheFault : Obligations.IllegalWordsTakeTheFault := by
  refine ⟨fun w => (exists_illegal_iff w).trans (legalWord_eq_false_iff w), fun s w rest reason hp hd hnone => ?_⟩
  rw [step_of_word hp, commandStep_of_illegal _ _ hd, gated_of_none _ hnone]
  rfl

/-! ## One response of the command's kind -/

/-- What the step function can do with a word: refuse it, run its command, or take ILLEGAL_COMMAND (R62, R63). -/
theorem commandStep_cases (capacity : Capacity) (b : Block) (w : Word) :
    (∃ c, b.fault = some c ∧ commandStep capacity b w = (b, .err c)) ∨
    (b.fault = none ∧ ∃ i, decode w = .command i ∧ commandStep capacity b w = commandEffect capacity i b) ∨
    (b.fault = none ∧ (∃ reason, decode w = .illegal reason) ∧
      commandStep capacity b w = (b.setFault (some .illegalCommand), .err .illegalCommand)) := by
  cases hf : b.fault with
  | some c => exact .inl ⟨c, rfl, gated_of_fault _ hf⟩
  | none =>
    cases hd : decode w with
    | command i => exact .inr (.inl ⟨rfl, i, rfl, by rw [commandStep_of_command capacity b hd, gated_of_none _ hf]⟩)
    | illegal reason =>
      exact .inr (.inr ⟨rfl, ⟨reason, rfl⟩, by rw [commandStep_of_illegal capacity b hd, gated_of_none _ hf]; rfl⟩)

/-- `RV_READ` answers 16 bits for each word held, the partial one included (R55). -/
theorem bitString_length (b : Block) : b.bitString.length = 16 * wordsHeld b := by
  rw [Block.bitString, List.length_append, flatMap_bits16_length, wordsHeld]
  split <;> simp [Nat.mul_add]

/-- Settles O27, over what the step function can do with the word, and over its command where it runs. -/
theorem oneResponsePerCommand : Obligations.OneResponsePerCommand := by
  intro s w rest hp
  refine ⟨_, _, step_of_word hp, rfl, rfl, ?_⟩
  obtain ⟨c, hf, hs⟩ | ⟨-, i, hd, hs⟩ | ⟨-, -, hs⟩ := commandStep_cases s.capacity s.block w
  · rw [hs]; exact hf
  · rw [hd]
    cases i with
    | crcInit => rw [hs]; exact .inl rfl
    | crcByte b => rw [hs]; exact .inr (.inl ⟨b, rfl⟩)
    | crcRead => rw [hs]; exact rfl
    | rvClear => rw [hs]; exact .inr (.inr (.inl rfl))
    | rvDigit d =>
      obtain ⟨-, heff⟩ | ⟨-, -, heff⟩ | ⟨-, -, heff⟩ := rvDigitEffect_cases s.capacity d s.block <;> rw [hs.trans heff]
      · exact rfl
      · exact .inr (.inr (.inr ⟨d, rfl⟩))
      · exact .inr (.inr (.inr ⟨d, rfl⟩))
    | rvRead =>
      rw [hs]
      exact ⟨rfl, wordsHeld s.block, by rw [List.length_reverse, bitString_length], fun hinv => hinv.2⟩
  · rw [hs]; exact rfl

end Sys2Proof.Machine
end

section
/-! PROOFS. The assembler (30_encoding.md R38, R39). -/

namespace Sys2Proof.Machine

/-- Settles O47. -/
theorem pseudoInstructionExamples : Obligations.PseudoInstructionExamples :=
  ⟨by decide, by decide, by decide⟩

/-- An operand that writes a number is that number when it passes the range check, and an error otherwise (R38). -/
theorem checkedOperand_of_number (fits : Nat → Bool) {cs : List Char} {n : Nat} (h : operandNumber cs = some n) :
    checkedOperand fits cs = if fits n then some n else none := by
  rw [checkedOperand, h, Option.filter_some]

theorem assembleOperand_crcByte (operand : List Char) :
    assembleOperand "CRC_BYTE".toList operand =
      (checkedOperand byteOperandFits operand).map fun n => [.crcByte (BitVec.ofNat 8 n)] :=
  if_pos rfl

theorem assembleOperand_rvDigit (operand : List Char) :
    assembleOperand "RV_DIGIT".toList operand =
      (checkedOperand digitOperandFits operand).map fun n => [.rvDigit (BitVec.ofNat 4 n)] :=
  (if_neg (by decide)).trans (if_pos rfl)

/-- Settles O48. -/
theorem assemblerOperandRanges : Obligations.AssemblerOperandRanges := by
  intro operand n h
  constructor
  · rw [assembleOperand_crcByte, checkedOperand_of_number _ h, apply_ite (Option.map _)]
    simp [byteOperandFits]
  · rw [assembleOperand_rvDigit, checkedOperand_of_number _ h, apply_ite (Option.map _)]
    simp [digitOperandFits]

end Sys2Proof.Machine
end

section
/-! PROOFS. The checksum engine's functions (40_crc.md R40 to R42, R48, R49): the shift step and runs of it are linear, and a
byte enters the register in bits 15 to 8. -/

namespace Sys2Proof.Machine

/-! ## The shift step -/

@[simp] theorem topBit_xor (x y : Word) : topBit (x ^^^ y) = (topBit x ^^ topBit y) := BitVec.getLsbD_xor

theorem topBit_eq_decide (r : Word) : topBit r = decide (32768 ≤ r.toNat) := by
  rw [topBit, ← BitVec.msb_eq_getLsbD_last, BitVec.msb_eq_decide]

theorem crcShift1_of_topBit {r : Word} (h : topBit r = true) : crcShift1 r = (r <<< 1) ^^^ crcPoly := if_pos h

theorem crcShift1_of_not_topBit {r : Word} (h : topBit r = false) : crcShift1 r = r <<< 1 := by
  rw [crcShift1, h, if_neg (by decide)]

/-- The shift step as one expression: the polynomial, or zeros, XORed into the shifted register. -/
theorem crcShift1_eq_xor (r : Word) : crcShift1 r = (r <<< 1) ^^^ (if topBit r then crcPoly else 0) := by
  cases h : topBit r
  · rw [crcShift1_of_not_topBit h]; simp
  · rw [crcShift1_of_topBit h]; simp

/-- Two choices between the polynomial and zeros XOR to the choice by the XOR of their bits. -/
theorem ite_xor_ite_crcPoly (p q : Bool) :
    (if (p ^^ q) = true then crcPoly else 0) = (if p then crcPoly else 0) ^^^ (if q then crcPoly else 0) := by
  cases p <;> cases q <;> rfl

/-- The shift step is linear (R48). -/
theorem crcShift1_xor (x y : Word) : crcShift1 (x ^^^ y) = crcShift1 x ^^^ crcShift1 y := by
  simp only [crcShift1_eq_xor, topBit_xor, ite_xor_ite_crcPoly, BitVec.shiftLeft_xor_distrib]
  ac_rfl

/-- The shift step in integers (R41). -/
theorem crcShift1_toNat (r : Word) :
    (crcShift1 r).toNat = (2 * r.toNat) % 65536 ^^^ (if 32768 ≤ r.toNat then 0x1021 else 0) := by
  have hpoly : (if topBit r then crcPoly else 0).toNat = if 32768 ≤ r.toNat then 0x1021 else 0 := by
    rw [topBit_eq_decide]
    split <;> simp_all [crcPoly]
  rw [crcShift1_eq_xor, BitVec.toNat_xor, hpoly, BitVec.toNat_shiftLeft, Nat.shiftLeft_eq, Nat.mul_comm]

/-- Settles O37. -/
theorem crcShiftStep : Obligations.CrcShiftStep :=
  ⟨fun _ => rfl, crcShift1_toNat, by decide, by decide, by decide, by decide, by decide, by decide⟩

/-- Bit 0 of the shifted register tells whether the polynomial, which is odd, was XORed in. -/
theorem crcShift1_getLsbD_zero (r : Word) : (crcShift1 r).getLsbD 0 = topBit r := by
  cases h : topBit r
  · rw [crcShift1_of_not_topBit h]; simp
  · rw [crcShift1_of_topBit h]; simp [crcPoly]

/-- The top bit shifted out is seen in bit 0, so nothing is lost. -/
theorem crcShift1_injective : Function.Injective crcShift1 := by
  intro x y h
  have htop : topBit x = topBit y := by rw [← crcShift1_getLsbD_zero, h, crcShift1_getLsbD_zero]
  have hshift : x <<< 1 = y <<< 1 := by
    rw [crcShift1_eq_xor, crcShift1_eq_xor, htop] at h
    exact (BitVec.xor_left_inj _).mp h
  ext i hi
  by_cases h15 : i = 15
  · subst h15
    exact htop
  · simpa [show i + 1 < 16 by omega] using congrArg (BitVec.getLsbD · (i + 1)) hshift

/-! ## Runs of shift steps -/

theorem crcShifts_succ (k : Nat) (t : Word) : crcShifts (k + 1) t = crcShift1 (crcShifts k t) := by
  induction k generalizing t with
  | zero => rfl
  | succ k ih => exact ih (crcShift1 t)

theorem crcShifts_add (j k : Nat) (t : Word) : crcShifts (j + k) t = crcShifts k (crcShifts j t) := by
  induction k with
  | zero => rfl
  | succ k ih => rw [← Nat.add_assoc, crcShifts_succ, ih, ← crcShifts_succ]

theorem crcShifts_xor (k : Nat) (x y : Word) : crcShifts k (x ^^^ y) = crcShifts k x ^^^ crcShifts k y := by
  induction k with
  | zero => rfl
  | succ k ih => simp only [crcShifts_succ, ih, crcShift1_xor]

theorem crcShifts_injective (k : Nat) : Function.Injective (crcShifts k) := by
  induction k with
  | zero => exact Function.injective_id
  | succ k ih => exact ih.comp crcShift1_injective

/-- Shift steps by which no set bit reaches the top are a plain shift. -/
theorem crcShifts_eq_shiftLeft {k : Nat} {t : Word} (h : ∀ i < k, t.getLsbD (15 - i) = false) (hk : k ≤ 16) :
    crcShifts k t = t <<< k := by
  induction k with
  | zero => rw [BitVec.shiftLeft_zero]; rfl
  | succ k ih =>
    have htop : topBit (t <<< k) = false := by
      rw [topBit, BitVec.getLsbD_shiftLeft, h k k.lt_succ_self, Bool.and_false]
    rw [crcShifts_succ, ih (fun i hi => h i (by omega)) (by omega), crcShift1_of_not_topBit htop, BitVec.shiftLeft_add]

/-- The low byte alone is carried by eight shift steps into bits 15 to 8. -/
theorem crcShifts_setWidth (b : Byte) : crcShifts 8 (b.setWidth 16) = byteHigh b := by
  refine crcShifts_eq_shiftLeft (fun i hi => ?_) (by decide)
  rw [BitVec.getLsbD_setWidth, BitVec.getLsbD_of_ge b _ (by omega), Bool.and_false]

/-! ## The byte in bits 15 to 8 -/

theorem byteHigh_getLsbD (b : Byte) (i : Nat) : (byteHigh b).getLsbD i = (decide (8 ≤ i) && b.getLsbD (i - 8)) := by
  rw [byteHigh, BitVec.getLsbD_shiftLeft, BitVec.getLsbD_setWidth]
  by_cases h16 : i < 16
  · by_cases h8 : i < 8
    · simp [h8, Nat.not_le.mpr h8]
    · simp [h16, h8, Nat.not_lt.mp h8, show i - 8 < 16 by omega]
  · rw [BitVec.getLsbD_of_ge b (i - 8) (by omega)]
    simp

theorem byteHigh_xor (b c : Byte) : byteHigh (b ^^^ c) = byteHigh b ^^^ byteHigh c := by
  rw [byteHigh, BitVec.setWidth_xor, BitVec.shiftLeft_xor_distrib, byteHigh, byteHigh]

/-- A word is its high byte in bits 15 to 8 and its low byte below. -/
theorem word_eq_byteHigh_xor (w : Word) : w = byteHigh (w.extractLsb' 8 8) ^^^ (w.extractLsb' 0 8).setWidth 16 := by
  ext i hi
  interval_cases i <;> simp [byteHigh]

/-- Shifting a word left by eight moves its low byte into bits 15 to 8. -/
theorem shiftLeft_eight_eq_byteHigh (w : Word) : w <<< 8 = byteHigh (w.extractLsb' 0 8) := by
  ext i hi
  interval_cases i <;> simp [byteHigh]

theorem extractLsb'_high_byteHigh (b : Byte) : (byteHigh b).extractLsb' 8 8 = b := by
  ext i hi
  interval_cases i <;> simp [byteHigh]

theorem extractLsb'_low_byteHigh (b : Byte) : (byteHigh b).extractLsb' 0 8 = 0#8 := by
  ext i hi
  interval_cases i <;> simp [byteHigh]

/-- Settles O38. -/
theorem crcByteUpdate : Obligations.CrcByteUpdate :=
  ⟨byteHigh_getLsbD, fun _ _ => rfl, by decide, by decide⟩

/-! ## The forms of the byte update -/

/-- Bit by bit, the byte still waiting in the top bits decides the XOR as bit `7 - j` of it does (R48 (a)). -/
theorem crcShift1_xor_byteHigh (r : Word) (b : Byte) {j : Nat} (hj : j < 8) :
    crcShift1 (r ^^^ byteHigh b <<< j) = crcSerialStep b r (7 - j) ^^^ byteHigh b <<< (j + 1) := by
  have htop : topBit (byteHigh b <<< j) = b.getLsbD (7 - j) := by
    rw [topBit, BitVec.getLsbD_shiftLeft, byteHigh_getLsbD, show 15 - j - 8 = 7 - j by omega]
    simp [show j ≤ 15 by omega, show 8 ≤ 15 - j by omega]
  simp only [crcShift1_eq_xor, crcSerialStep, topBit_xor, htop, BitVec.shiftLeft_xor_distrib, BitVec.shiftLeft_add]
  ac_rfl

/-- After `j` bits the register of `crc_byte` is that of the bit-serial form with the rest of the byte in its top bits. -/
theorem crcShifts_xor_byteHigh (r : Word) (b : Byte) {j : Nat} (hj : j ≤ 8) :
    crcShifts j (r ^^^ byteHigh b) =
      ((List.range j).map (7 - ·)).foldl (crcSerialStep b) r ^^^ byteHigh b <<< j := by
  induction j with
  | zero => rw [BitVec.shiftLeft_zero]; rfl
  | succ j ih =>
    rw [crcShifts_succ, ih (by omega), crcShift1_xor_byteHigh _ _ hj, List.range_succ, List.map_append,
      List.foldl_append, List.map_singleton, List.foldl_cons, List.foldl_nil]

theorem crcByteSerial_eq_crcByte (r : Word) (b : Byte) : crcByteSerial r b = crcByte r b := by
  have hout : byteHigh b <<< 8 = 0#16 := by
    rw [byteHigh, ← BitVec.shiftLeft_add]
    exact BitVec.shiftLeft_eq_zero (by decide)
  rw [crcByte, crcShifts_xor_byteHigh r b (Nat.le_refl 8), hout, BitVec.xor_zero]
  rfl

theorem crcTable_eq_crcShifts (i : Byte) : crcTable i = crcShifts 8 (byteHigh i) :=
  congrArg (crcShifts 8) BitVec.zero_xor

/-- The high byte goes through the table and the low byte is only shifted (R48 (b)). -/
theorem crcByteTable_eq_crcByte (r : Word) (b : Byte) : crcByteTable r b = crcByte r b := by
  calc crcByteTable r b
      = crcShifts 8 ((r.extractLsb' 0 8).setWidth 16) ^^^ crcShifts 8 (byteHigh (r.extractLsb' 8 8 ^^^ b)) := by
        rw [crcByteTable, crcTable_eq_crcShifts, shiftLeft_eight_eq_byteHigh, crcShifts_setWidth]
    _ = crcShifts 8 (byteHigh (r.extractLsb' 8 8) ^^^ (r.extractLsb' 0 8).setWidth 16 ^^^ byteHigh b) := by
        rw [← crcShifts_xor, byteHigh_xor]
        ac_rfl
    _ = crcByte r b := by rw [← word_eq_byteHigh_xor, crcByte]

/-- Settles O40. -/
theorem crcFormsAgree : Obligations.CrcFormsAgree :=
  ⟨crcByteSerial_eq_crcByte, crcByteTable_eq_crcByte, crcShift1_xor, by decide, by decide, by decide, by decide⟩

/-- The update by a fixed byte is a bijection (R44). -/
theorem crcByte_bijective (b : Byte) : Function.Bijective fun r => crcByte r b :=
  Finite.injective_iff_bijective.mp fun _ _ h => (BitVec.xor_left_inj _).mp (crcShifts_injective 8 h)

/-! ## The zero byte -/

/-- The table's entries whose two bytes XOR to their index, the ones a fixed point of the zero byte can go through. -/
theorem crcTable_bytes_xor_eq_iff (i : Byte) :
    (crcTable i).extractLsb' 0 8 ^^^ (crcTable i).extractLsb' 8 8 = i ↔ i = 0x00 ∨ i = 0xF0 := by
  revert i
  decide

/-- The zero byte leaves two registers as they were. By the table form, such a register's low byte is its table entry's and its
high byte is the XOR of the entry's two bytes, so it goes through one of two entries (R44, log entry 10). -/
theorem crcByte_zero_eq_self_iff (r : Word) : crcByte r 0x00 = r ↔ r = 0x0000 ∨ r = 0xF01F := by
  constructor
  · intro h
    have hsplit : byteHigh (r.extractLsb' 0 8) ^^^ crcTable (r.extractLsb' 8 8) = r := by
      rw [← crcByteTable_eq_crcByte] at h
      simpa [crcByteTable, shiftLeft_eight_eq_byteHigh] using h
    have hlow := congrArg (BitVec.extractLsb' 0 8) hsplit
    have hhigh := congrArg (BitVec.extractLsb' 8 8) hsplit
    rw [BitVec.extractLsb'_xor, extractLsb'_low_byteHigh, BitVec.zero_xor] at hlow
    rw [BitVec.extractLsb'_xor, extractLsb'_high_byteHigh, ← hlow] at hhigh
    have hr := word_eq_byteHigh_xor r
    rw [← hlow] at hr
    obtain hi | hi := (crcTable_bytes_xor_eq_iff _).mp hhigh <;> rw [hi] at hr
    · exact .inl (hr.trans (by decide))
    · exact .inr (hr.trans (by decide))
  · rintro (rfl | rfl) <;> decide

/-! ## Messages -/

theorem crcBytes_append (r : Word) (x y : List Byte) : crcBytes r (x ++ y) = crcBytes (crcBytes r x) y :=
  List.foldl_append

/-- `crc16` is the register with the output XOR, and the other way round (R40). -/
theorem crc16_xor (data : List Byte) : crc16 data ^^^ 0xFFFF = crcBytes 0xFFFF data := by
  rw [crc16, crcXorOut, BitVec.xor_assoc, BitVec.xor_self]
  exact BitVec.xor_zero

theorem crc16_snoc (data : List Byte) (b : Byte) :
    crc16 (data ++ [b]) = crcByte (crc16 data ^^^ 0xFFFF) b ^^^ 0xFFFF := by
  rw [crc16_xor, crc16, crcBytes_append]
  rfl

/-- The document's reference message leaves 0x673C (R40). -/
theorem crcBytes_reference :
    crcBytes 0xFFFF [0x30, 0x00, 0xE2, 0x80, 0x11, 0x60, 0x60, 0x00, 0x02, 0x11, 0xEB, 0xDD, 0x71, 0x75] = 0x673C := by
  decide +kernel

/-- Settles O39. -/
theorem crc16OfTheMessage : Obligations.Crc16OfTheMessage :=
  ⟨rfl, crc16_snoc, crcBytes_reference, congrArg (· ^^^ crcXorOut) crcBytes_reference⟩

/-! ## The residue -/

/-- The bytes of a word, high byte first, are the word XORed into the register and sixteen shift steps: the low byte, entered
eight steps early, is carried up to bits 15 to 8. -/
theorem crcBytes_word (r w : Word) : crcBytes r [w.extractLsb' 8 8, w.extractLsb' 0 8] = crcShifts 16 (r ^^^ w) := by
  calc crcBytes r [w.extractLsb' 8 8, w.extractLsb' 0 8]
      = crcShifts 8 (crcShifts 8 (r ^^^ byteHigh (w.extractLsb' 8 8)) ^^^ byteHigh (w.extractLsb' 0 8)) := rfl
    _ = crcShifts 8 (crcShifts 8 (r ^^^ (byteHigh (w.extractLsb' 8 8) ^^^ (w.extractLsb' 0 8).setWidth 16))) := by
        rw [← crcShifts_setWidth (w.extractLsb' 0 8), ← crcShifts_xor, BitVec.xor_assoc]
    _ = crcShifts 16 (r ^^^ w) := by rw [← word_eq_byteHigh_xor, ← crcShifts_add]

/-- A message followed by its CRC leaves 0x1D0F: the register meets its own complement (R49). -/
theorem crcBytes_append_crc16 (data : List Byte) :
    crcBytes 0xFFFF (data ++ [(crc16 data).extractLsb' 8 8, (crc16 data).extractLsb' 0 8]) = 0x1D0F := by
  have hxor : crcBytes 0xFFFF data ^^^ crc16 data = 0xFFFF := by
    rw [crc16, ← BitVec.xor_assoc, crcInitValue, BitVec.xor_self]
    rfl
  rw [crcBytes_append, crcBytes_word, hxor]
  decide +kernel

/-- Settles O41. -/
theorem crcEdgesAndResidue : Obligations.CrcEdgesAndResidue :=
  ⟨by decide, by decide, crcBytes_append, fun data =>
    ⟨crcBytes_append_crc16 data, congrArg (· ^^^ crcXorOut) (crcBytes_append_crc16 data)⟩⟩

end Sys2Proof.Machine
end

section
/-! PROOFS. The checksum engine's commands (40_crc.md R43 to R45), and the message it holds (R8, R46). -/

namespace Sys2Proof.Machine

/-! ## The three commands -/

/-- `exec_of_fault`, its next state written out whole (R62). -/
theorem exec_refused {i : Instr} (s : State) (c : FaultCause) (h : s.block.fault = some c) :
    exec i s = .next { s with responses := s.responses ++ [.err c] } :=
  exec_of_fault i h

/-- Settles O11. -/
theorem crcInitResult : Obligations.CrcInitResult :=
  ⟨fun w => decodeInvertsEncode w .crcInit, fun s => ⟨fun h => exec_of_none .crcInit h, exec_refused s⟩⟩

/-- Settles O12. -/
theorem crcByteResult : Obligations.CrcByteResult :=
  ⟨fun w b => decodeInvertsEncode w (.crcByte b),
    fun s b => ⟨fun h => exec_of_none (.crcByte b) h, exec_refused s⟩,
    crcByte_zero_eq_self_iff, by decide +kernel, by decide, crcByte_new_message, crcByte_bijective⟩

/-- Settles O14. -/
theorem crcReadResult : Obligations.CrcReadResult :=
  ⟨fun w => decodeInvertsEncode w .crcRead, fun s => ⟨fun h => exec_of_none .crcRead h, exec_refused s⟩⟩

/-- Refutes O13: the register 0xF01F, too, is left as it was. -/
theorem not_zeroByteChangesEveryOtherRegister : ¬ Obligations.ZeroByteChangesEveryOtherRegister := by
  intro h
  obtain ⟨t, hexec, hne⟩ := h ((State.resetWith .unbounded).setBlock (Block.reset.setCrc 0xF01F)) rfl (by decide)
  rw [exec_of_none _ rfl] at hexec
  cases hexec
  exact hne ((crcByte_zero_eq_self_iff _).mpr (.inr rfl))

/-! ## The message held -/

/-- A command that runs leaves the message that `messageAfter` says (R46). -/
theorem holdsMessage_commandEffect {b : Block} {m : List Byte} (hm : HoldsMessage b m) (capacity : Capacity) {w : Word}
    {i : Instr} (hd : decode w = .command i) :
    HoldsMessage (commandEffect capacity i b).1 (messageAfter m (.command w)) := by
  have hkeep : ∀ j, isCrcCommand j = false → (commandEffect capacity j b).1.crc = b.crc := fun j hj =>
    congrArg (·.1.crc) (commandEffect_setCrc hj capacity b b.crc)
  cases i <;> simp only [messageAfter, hd]
  case crcInit => exact rfl
  case crcByte d =>
    rw [HoldsMessage, crcBytes_append, ← hm]
    rfl
  case crcRead => exact hm
  case rvClear => exact hm
  case rvDigit d => exact (hkeep _ rfl).trans hm
  case rvRead => exact hm

/-- One event that leaves no fault: a command was let through by the gate, an illegal word cannot be the event, and a reset
starts the empty message. A faulted start need not hold the message, so that a run may take a fault and be reset. -/
theorem holdsMessage_eventOutcome {capacity : Capacity} {b : Block} {m : List Byte}
    (hm : b.fault = none → HoldsMessage b m) (e : HostEvent) (hnone : (eventOutcome capacity b e).final.fault = none) :
    HoldsMessage (eventOutcome capacity b e).final (messageAfter m e) := by
  cases e with
  | command w =>
    simp only [eventOutcome] at hnone ⊢
    obtain ⟨c, hf, hs⟩ | ⟨hf, i, hd, hs⟩ | ⟨-, -, hs⟩ := commandStep_cases capacity b w <;> rw [hs] at hnone ⊢
    · rw [hf] at hnone
      cases hnone
    · exact holdsMessage_commandEffect (hm hf) capacity hd
    · cases hnone
  | reset => exact rfl
  | resetWithCommand w => exact rfl

theorem holdsMessage_runProgram {capacity : Capacity} {b : Block} {m : List Byte}
    (hm : b.fault = none → HoldsMessage b m) (es : List HostEvent) (hnone : (runProgram capacity b es).final.fault = none) :
    HoldsMessage (runProgram capacity b es).final (es.foldl messageAfter m) := by
  induction es generalizing b m with
  | nil => exact hm hnone
  | cons e es ih => exact ih (fun he => holdsMessage_eventOutcome hm e he) hnone

end Sys2Proof.Machine
end

section
/-! PROOFS. The machine's own runs are `runProgram`'s (70_reset_and_hazards.md R77); the message the block holds, step by step
(40_crc.md R46), and what the reads answer. -/

namespace Sys2Proof.Machine

/-! ## The machine's own runs -/

/-- The machine's step on what is presented first is one event of a run. -/
theorem step_of_event {s : State} {e : HostEvent} {rest : List HostEvent} (hp : s.pending = e :: rest) :
    step s = .next { s with
      block := (eventOutcome s.capacity s.block e).final
      pending := rest
      responses := s.responses ++ (eventOutcome s.capacity s.block e).responses } := by
  cases e with
  | command w => exact step_of_word hp
  | reset => simp only [step, State.takeEvent_cons hp, eventOutcome, List.append_nil]; rfl
  | resetWithCommand w => simp only [step, State.takeEvent_cons hp, eventOutcome, List.append_nil]; rfl

/-- With `es` presented, as many steps of the machine as there are events are the run of `es` (R77). -/
theorem core_run_pending (s : State) (es : List HostEvent) :
    core.run es.length { s with pending := es } = .next { s with
      block := (runProgram s.capacity s.block es).final
      pending := []
      responses := s.responses ++ (runProgram s.capacity s.block es).responses } := by
  induction es generalizing s with
  | nil => simp [core_run_zero]
  | cons e es ih =>
    have hfirst := core_run_succ es.length (step_of_event (s := { s with pending := e :: es }) rfl)
    have hrest := ih { s with
      block := (eventOutcome s.capacity s.block e).final
      responses := s.responses ++ (eventOutcome s.capacity s.block e).responses }
    rw [List.length_cons, runProgram_cons, ← List.append_assoc]
    exact hfirst.trans hrest

/-- The same for a program of commands, one step for each. -/
theorem core_run_programWords (s : State) (p : List Instr) :
    core.run p.length { s with pending := (programWords p).map .command } = .next { s with
      block := (runProgram s.capacity s.block ((programWords p).map .command)).final
      pending := []
      responses := s.responses ++ (runProgram s.capacity s.block ((programWords p).map .command)).responses } := by
  simpa [programWords] using core_run_pending s ((programWords p).map .command)

/-- Settles O30. -/
theorem crcTracksTheMessage : Obligations.CrcTracksTheMessage := by
  intro s t e rest m hp hm hstep hnone
  rw [step_of_event hp] at hstep
  cases hstep
  exact holdsMessage_eventOutcome (fun _ => hm) e hnone

/-! ## The reads -/

/-- What `RV_READ` reverses is the bits of the string held, a partial word's included (R51, R55). -/
theorem bitString_of_holdsString {b : Block} {h : List Digit} (hh : HoldsString b h) : b.bitString = wordBits h := by
  obtain ⟨hwords, hcount, hacc⟩ := hh
  rw [Block.bitString, wordBits, stringWords_eq, List.flatMap_append, hwords, hacc]
  by_cases h0 : h.length % 4 = 0 <;> simp [Fin.lt_def, hcount, h0, Nat.pos_of_ne_zero]

theorem crcReadEffect_of_holdsMessage {b : Block} {m : List Byte} (hm : HoldsMessage b m) :
    crcReadEffect b = (b, .val16 (crc16 m)) := by
  rw [crcReadEffect, hm]
  rfl

/-- Settles O33. -/
theorem readsAnswerTheFunctions : Obligations.ReadsAnswerTheFunctions := by
  refine ⟨fun s m hnone hm => ?_, fun s h hnone hh => ?_⟩
  · rw [exec_of_none _ hnone, commandEffect, crcReadEffect_of_holdsMessage hm]
    rfl
  · rw [exec_of_none _ hnone, commandEffect, rvReadEffect, bitString_of_holdsString hh]
    rfl

end Sys2Proof.Machine
end

section
/-! PROOFS. Programs of commands: the run of a program, when it takes no fault, and that the commands realise `crc16`
(40_crc.md R46). -/

namespace Sys2Proof.Machine

/-! ## Programs of commands -/

theorem commandStep_encode (capacity : Capacity) (b : Block) (i : Instr) :
    commandStep capacity b (encode i) = gated (commandEffect capacity i) b :=
  commandStep_of_command capacity b (decode_encode i)

/-- The run of a program whose first command finds no fault: the command's effect, and the run of the rest. -/
theorem runProgram_programWords_cons (capacity : Capacity) {b : Block} (hnone : b.fault = none) (i : Instr)
    (p : List Instr) :
    runProgram capacity b ((programWords (i :: p)).map .command) =
      ⟨(runProgram capacity (commandEffect capacity i b).1 ((programWords p).map .command)).final,
        (commandEffect capacity i b).2 ::
          (runProgram capacity (commandEffect capacity i b).1 ((programWords p).map .command)).responses⟩ := by
  rw [programWords, List.map_cons, List.map_cons, runProgram_cons, eventOutcome, commandStep_encode, gated_of_none _ hnone]
  rfl

theorem runProgram_programWords_append (capacity : Capacity) (b : Block) (p q : List Instr) :
    runProgram capacity b ((programWords (p ++ q)).map .command) =
      ⟨(runProgram capacity (runProgram capacity b ((programWords p).map .command)).final
          ((programWords q).map .command)).final,
        (runProgram capacity b ((programWords p).map .command)).responses ++
          (runProgram capacity (runProgram capacity b ((programWords p).map .command)).final
            ((programWords q).map .command)).responses⟩ := by
  rw [programWords, List.map_append, List.map_append, runProgram_append]
  rfl

/-- The bytes of a message, each answered `ack` (R46). -/
theorem runProgram_crcBytesProgram (capacity : Capacity) {b : Block} (hnone : b.fault = none) (data : List Byte) :
    runProgram capacity b ((programWords (crcBytesProgram data)).map .command) =
      ⟨b.setCrc (crcBytes b.crc data), List.replicate data.length .ack⟩ := by
  induction data generalizing b with
  | nil => rfl
  | cons d data ih =>
    rw [crcBytesProgram, List.map_cons, ← crcBytesProgram, runProgram_programWords_cons _ hnone, commandEffect_crcByte,
      ih (b := b.setCrc (crcByte b.crc d)) hnone]
    rfl

/-- `CRC_INIT`, the bytes, `CRC_READ` (R46). -/
theorem runProgram_crc16Program (capacity : Capacity) {b : Block} (hnone : b.fault = none) (data : List Byte) :
    runProgram capacity b ((programWords (crc16Program data)).map .command) =
      ⟨b.setCrc (crcBytes 0xFFFF data), List.replicate (data.length + 1) .ack ++ [.val16 (crc16 data)]⟩ := by
  have hinit : commandEffect capacity .crcInit b = (b.setCrc 0xFFFF, .ack) := rfl
  rw [crc16Program, runProgram_programWords_cons _ hnone, hinit, runProgram_programWords_append,
    runProgram_crcBytesProgram _ (b := b.setCrc 0xFFFF) hnone,
    runProgram_programWords_cons _ (b := (b.setCrc 0xFFFF).setCrc (crcBytes (b.setCrc 0xFFFF).crc data)) hnone]
  rfl

/-! ## The message and the string a program gives -/

/-- Without `CRC_INIT` a program adds its bytes to the message held. -/
theorem foldl_messageAfter_programWords {p : List Instr} (hp : .crcInit ∉ p) (m : List Byte) :
    ((programWords p).map HostEvent.command).foldl messageAfter m = m ++ bytesOf p := by
  induction p generalizing m with
  | nil => simp [programWords, bytesOf]
  | cons i p ih =>
    obtain ⟨hi, hp'⟩ := not_or.mp (List.mem_cons.not.mp hp)
    rw [programWords, List.map_cons, List.map_cons, List.foldl_cons, ← programWords, ih hp']
    cases i <;> simp only [messageAfter, decode_encode, bytesOf]
    case crcInit => exact absurd rfl hi
    case crcByte d => simp

/-- No command takes a fault but an `RV_DIGIT` that overflows (R65). -/
theorem commandEffect_fault_of_room {capacity : Capacity} {b : Block} {i : Instr} (hnone : b.fault = none)
    (hroom : ∀ d, i = .rvDigit d → overflows capacity b = false) : (commandEffect capacity i b).1.fault = none := by
  cases i with
  | crcInit => exact hnone
  | crcByte d => exact hnone
  | crcRead => exact hnone
  | rvClear => exact hnone
  | rvDigit d =>
    obtain ⟨hov, -⟩ | ⟨-, -, heff⟩ | ⟨-, -, heff⟩ := rvDigitEffect_cases capacity d b
    · rw [hroom d rfl] at hov
      cases hov
    · exact (congrArg (·.1.fault) heff).trans hnone
    · exact (congrArg (·.1.fault) heff).trans hnone
  | rvRead => exact hnone

theorem digitsOf_cons (i : Instr) (p : List Instr) : digitsOf (i :: p) = digitsOf [i] ++ digitsOf p := by
  cases i <;> rfl

theorem runProgram_fault_of_no_digits {capacity : Capacity} {b : Block} {p : List Instr} (hnone : b.fault = none)
    (hp : digitsOf p = []) : (runProgram capacity b ((programWords p).map .command)).final.fault = none := by
  induction p generalizing b with
  | nil => exact hnone
  | cons i p ih =>
    rw [digitsOf_cons, List.append_eq_nil_iff] at hp
    obtain ⟨hi, hp⟩ := hp
    rw [runProgram_programWords_cons _ hnone]
    refine ih (commandEffect_fault_of_room hnone fun d hd => ?_) hp
    rw [hd] at hi
    cases hi

theorem hasRoom_words_iff {n k : Nat} (hn : 1 ≤ n) : hasRoom (.words n hn) k = true ↔ k ≤ n := decide_eq_true_iff

/-- What has room for the words of a string has room for those of a shorter one. -/
theorem hasRoom_of_length_le {capacity : Capacity} {h h' : List Digit} (hroom : hasRoom capacity (wordCount h') = true)
    (hle : h.length ≤ h'.length) : hasRoom capacity (wordCount h) = true := by
  cases capacity with
  | unbounded => rfl
  | words n hn =>
    rw [hasRoom_words_iff, wordCount] at hroom ⊢
    omega

/-- A digit that fits beside the string held does not overflow (R54). -/
theorem overflows_of_room {capacity : Capacity} {b : Block} {h : List Digit} (hh : HoldsString b h) (d : Digit)
    (hroom : hasRoom capacity (wordCount (h ++ [d])) = true) : overflows capacity b = false := by
  obtain ⟨hwords, hcount, -⟩ := hh
  refine Bool.eq_false_iff.mpr fun hov => ?_
  obtain ⟨hn, n, hn1, rfl, hlen⟩ := (overflows_iff capacity b).mp hov
  rw [hwords, completeWords, List.length_map, List.length_range] at hlen
  rw [hn, Fin.val_zero] at hcount
  rw [hasRoom_words_iff, wordCount, List.length_append, List.length_singleton] at hroom
  omega

/-- A command leaves at most the string held and its own digit. -/
theorem stringAfter_length_le (h : List Digit) (i : Instr) :
    (stringAfter h (.command (encode i))).length ≤ (h ++ digitsOf [i]).length := by
  cases i <;> simp [stringAfter, decode_encode, digitsOf]

/-- A program whose digits fit beside the string held takes no fault (R54, R65). -/
theorem runProgram_fault_of_room {capacity : Capacity} {b : Block} {h : List Digit} {p : List Instr}
    (hnone : b.fault = none) (hh : HoldsString b h) (hroom : hasRoom capacity (wordCount (h ++ digitsOf p)) = true) :
    (runProgram capacity b ((programWords p).map .command)).final.fault = none := by
  induction p generalizing b h with
  | nil => exact hnone
  | cons i p ih =>
    rw [digitsOf_cons, ← List.append_assoc] at hroom
    have hnone' : (commandEffect capacity i b).1.fault = none :=
      commandEffect_fault_of_room hnone fun d hd =>
        overflows_of_room hh d (hasRoom_of_length_le hroom (by simp [hd, digitsOf]))
    rw [runProgram_programWords_cons _ hnone]
    refine ih hnone' (holdsString_commandEffect hh capacity (decode_encode i) hnone') (hasRoom_of_length_le hroom ?_)
    rw [List.length_append, List.length_append]
    exact Nat.add_le_add_right (stringAfter_length_le h i) _

/-! ## A program that ends in `CRC_READ` -/

/-- A last `CRC_READ` keeps the block and adds its answer. -/
theorem runProgram_snoc_crcRead (capacity : Capacity) (b : Block) (p : List Instr) :
    runProgram capacity b ((programWords (p ++ [.crcRead])).map .command) =
      ⟨(runProgram capacity b ((programWords p).map .command)).final,
        (runProgram capacity b ((programWords p).map .command)).responses ++
          [(gated crcReadEffect (runProgram capacity b ((programWords p).map .command)).final).2]⟩ := by
  rw [runProgram_programWords_append]
  generalize (runProgram capacity b ((programWords p).map .command)) = o
  rw [show (programWords [.crcRead]).map HostEvent.command = [.command (encode .crcRead)] from rfl, runProgram_cons,
    eventOutcome, commandStep_encode]
  exact congrArg (RunOutcome.mk · _) (gated_block_of_keeps (fun _ => rfl) o.final)

/-- From a new message, a program without `CRC_INIT` that takes no fault reads the `crc16` of its bytes (R46). -/
theorem getLast?_snoc_crcRead {capacity : Capacity} {b : Block} {p : List Instr} (hb : HoldsMessage b [])
    (hp : .crcInit ∉ p)
    (hnone : (runProgram capacity b ((programWords (p ++ [.crcRead])).map .command)).final.fault = none) :
    (runProgram capacity b ((programWords (p ++ [.crcRead])).map .command)).responses.getLast? =
      some (.val16 (crc16 (bytesOf p))) := by
  rw [runProgram_snoc_crcRead] at hnone ⊢
  have hm := holdsMessage_runProgram (fun _ => hb) _ hnone
  rw [foldl_messageAfter_programWords hp, List.nil_append] at hm
  rw [gated_of_none _ hnone, crcReadEffect_of_holdsMessage hm, List.getLast?_concat]

/-- `CRC_INIT` behind the gate starts a new message and touches nothing else (R43). -/
theorem runProgram_crcInit_cons (capacity : Capacity) {b : Block} (hnone : b.fault = none) (p : List Instr) :
    runProgram capacity b ((programWords (.crcInit :: p)).map .command) =
      ⟨(runProgram capacity (b.setCrc 0xFFFF) ((programWords p).map .command)).final,
        .ack :: (runProgram capacity (b.setCrc 0xFFFF) ((programWords p).map .command)).responses⟩ :=
  runProgram_programWords_cons capacity hnone .crcInit p

/-- Settles O34: the machine's run is the run of the program, in which every command keeps track of the message and of the
room for the string. -/
theorem commandsRealiseCrc16 : Obligations.CommandsRealiseCrc16 := by
  refine ⟨fun s data hnone => ?_, fun s p hnone hp => ?_, fun s p hreset hp => ?_, fun s es m hm => ?_⟩
  · have hlen : data.length + 2 = (crc16Program data).length := by simp [crc16Program, crcBytesProgram]
    rw [hlen, core_run_programWords, runProgram_crc16Program _ hnone]
    rfl
  · have hlen : p.length + 2 = (Instr.crcInit :: (p ++ [.crcRead])).length := by simp
    have hnew : HoldsMessage (s.block.setCrc 0xFFFF) [] := rfl
    rw [hlen, core_run_programWords, runProgram_crcInit_cons _ hnone]
    refine ⟨_, rfl, fun ht => ?_, fun hd => ?_, fun h hh hroom => ?_⟩
    · have hread := List.mem_getLast?_append_of_mem_getLast? (l₁ := [Response.ack]) (getLast?_snoc_crcRead hnew hp ht)
      exact List.mem_getLast?_append_of_mem_getLast? hread
    · rw [runProgram_snoc_crcRead]
      exact runProgram_fault_of_no_digits (b := s.block.setCrc 0xFFFF) hnone hd
    · rw [runProgram_snoc_crcRead]
      exact runProgram_fault_of_room (b := s.block.setCrc 0xFFFF) hnone hh hroom
  · have hlen : p.length + 1 = (p ++ [Instr.crcRead]).length := by simp
    rw [hlen, core_run_programWords, hreset]
    refine ⟨_, rfl, fun ht => ?_, fun hroom => ?_⟩
    · exact List.mem_getLast?_append_of_mem_getLast? (getLast?_snoc_crcRead rfl hp ht)
    · rw [runProgram_snoc_crcRead]
      exact runProgram_fault_of_room rfl (holdsString_nil_of_empty rfl rfl rfl) hroom
  · exact ⟨_, core_run_pending s es, holdsMessage_runProgram (fun _ => hm) es⟩

end Sys2Proof.Machine
end

section
/-! PROOFS. The bit-reversal unit's functions (41_bitrev.md R51, R52, R57 to R59): bits of words and of digits, place by
place, and a string's `S` as the bits of its digits, a last partial word zero-padded on the left. -/

namespace Sys2Proof.Machine

/-! ## Blocks of equal length -/

/-- In blocks of `k` items, item `k*q + t` is item `t` of block `q`. -/
theorem getElem?_flatMap_block {α β : Type} {f : α → List β} {g : α → β} {k t : Nat} (hlen : ∀ a, (f a).length = k)
    (ht : t < k) (hget : ∀ a, (f a)[t]? = some (g a)) (l : List α) (q : Nat) :
    (l.flatMap f)[k * q + t]? = l[q]?.map g := by
  induction l generalizing q with
  | nil => simp
  | cons a l ih =>
    rw [List.flatMap_cons]
    cases q with
    | zero => rw [Nat.mul_zero, Nat.zero_add, List.getElem?_append_left (by rwa [hlen]), hget]; rfl
    | succ q =>
      have hsub : k * (q + 1) + t - k = k * q + t := by rw [Nat.mul_succ]; omega
      rw [List.getElem?_append_right (by rw [hlen, Nat.mul_succ]; omega), hlen, hsub, ih, List.getElem?_cons_succ]

/-- The same of the reversal, where the last block comes first and each block is reversed. -/
theorem getElem?_reverse_flatMap_block {α β : Type} {f : α → List β} {g : α → β} {k t : Nat}
    (hlen : ∀ a, (f a).length = k) (ht : t < k) (hget : ∀ a, (f a).reverse[t]? = some (g a)) {l : List α} {q : Nat}
    (hq : q < l.length) : (l.flatMap f).reverse[k * q + t]? = l[l.length - 1 - q]?.map g := by
  rw [List.reverse_flatMap, ← List.getElem?_reverse hq]
  exact getElem?_flatMap_block (fun a => by simp [hlen]) ht hget l.reverse q

/-! ## The bits of a word and of a digit -/

theorem bits16_reverse_getElem? (w : Word) {t : Nat} (ht : t < 16) : (bits16 w).reverse[t]? = some (w.getLsbD t) := by
  rw [List.getElem?_reverse (by rwa [bits16_length]), bits16_length, bits16, List.getElem?_map,
    List.getElem?_range (by omega), Option.map_some, show 15 - (16 - 1 - t) = t by omega]

theorem digitBits_getElem? (d : Digit) {t : Nat} (ht : t < 4) : (digitBits d)[t]? = some (d.getLsbD (3 - t)) := by
  rw [digitBits, List.getElem?_map, List.getElem?_range ht, Option.map_some]

theorem digitBits_reverse_getElem? (d : Digit) {t : Nat} (ht : t < 4) :
    (digitBits d).reverse[t]? = some (d.getLsbD t) := by
  rw [List.getElem?_reverse (by rwa [digitBits_length]), digitBits_length, digitBits_getElem? d (by omega),
    show 3 - (4 - 1 - t) = t by omega]

/-! ## The bits of a string's digits -/

theorem digitsToBits_cons (d : Digit) (h : List Digit) : digitsToBits (d :: h) = digitBits d ++ digitsToBits h := rfl

theorem digitsToBits_append (h h' : List Digit) : digitsToBits (h ++ h') = digitsToBits h ++ digitsToBits h' :=
  List.flatMap_append

@[simp] theorem digitsToBits_length (h : List Digit) : (digitsToBits h).length = 4 * h.length := by
  induction h with
  | nil => rfl
  | cons d h ih => rw [digitsToBits_cons, List.length_append, digitBits_length, ih, List.length_cons]; omega

theorem digitsToBits_getElem? (h : List Digit) (q : Nat) {t : Nat} (ht : t < 4) :
    (digitsToBits h)[4 * q + t]? = h[q]?.map fun d => d.getLsbD (3 - t) :=
  getElem?_flatMap_block digitBits_length ht (fun d => digitBits_getElem? d ht) h q

/-- The bits reversed are the digits in reverse order, each with its least significant bit first (R58). -/
theorem digitsToBits_reverse_getElem? (h : List Digit) {i : Nat} (hi : i < 4 * h.length) :
    (digitsToBits h).reverse[i]? = h[h.length - 1 - i / 4]?.map fun d => d.getLsbD (i % 4) := by
  have hblock := getElem?_reverse_flatMap_block (f := digitBits) digitBits_length (Nat.mod_lt i (by decide))
    (fun d => digitBits_reverse_getElem? d (Nat.mod_lt i (by decide))) (l := h) (q := i / 4) (by omega)
  rwa [Nat.div_add_mod] at hblock

theorem digitsToBits_reverse_split (h : List Digit) (n : Nat) :
    (digitsToBits h).reverse = (digitsToBits (h.drop n)).reverse ++ (digitsToBits (h.take n)).reverse := by
  rw [← List.reverse_append, ← digitsToBits_append, List.take_append_drop]

/-! ## `digits_to_bits` and its inverse -/

theorem bitsDigit_toNat (a b c d : Bool) :
    (bitsDigit a b c d).toNat = 8 * a.toNat + 4 * b.toNat + 2 * c.toNat + d.toNat := by
  revert a b c d
  decide

theorem digitBits_bitsDigit (a b c d : Bool) : digitBits (bitsDigit a b c d) = [a, b, c, d] := by
  revert a b c d
  decide

theorem bitsDigit_digitBits (d : Digit) :
    bitsDigit (d.getLsbD 3) (d.getLsbD 2) (d.getLsbD 1) (d.getLsbD 0) = d := by
  revert d
  decide

theorem bitsToDigits_digitsToBits (h : List Digit) : bitsToDigits (digitsToBits h) = some h := by
  induction h with
  | nil => rfl
  | cons d h ih =>
    have hcons : digitsToBits (d :: h) = d.getLsbD 3 :: d.getLsbD 2 :: d.getLsbD 1 :: d.getLsbD 0 :: digitsToBits h := rfl
    rw [hcons, bitsToDigits, ih, Option.map_some, bitsDigit_digitBits]

/-- Every bit sequence of whole digits is the bits of its digits. -/
theorem exists_digitsToBits (s : BitSeq) (hs : 4 ∣ s.length) : ∃ h, digitsToBits h = s := by
  induction s using bitsToDigits.induct with
  | case1 => exact ⟨[], rfl⟩
  | case2 a b c d rest ih =>
    obtain ⟨h, rfl⟩ := ih (by simp only [List.length_cons] at hs; omega)
    exact ⟨bitsDigit a b c d :: h, by rw [digitsToBits_cons, digitBits_bitsDigit]; rfl⟩
  | case3 => exact absurd hs (by simp)
  | case4 => exact absurd hs (by simp)
  | case5 => exact absurd hs (by simp)

/-! ## The number of a group of digits -/

/-- A digit more shifts the bits left by one digit and puts its own at the end (R54). -/
theorem bits16_accWith (acc : Word) (d : Digit) : bits16 (accWith acc d) = (bits16 acc).drop 4 ++ digitBits d := by
  simp [bits16, digitBits, accWith, digitWord, List.range_succ]

/-- The bits of a group's number are the group's, behind as many zeros as fit (R51, R59). -/
theorem bits16_digitsValue (ds : List Digit) :
    bits16 (digitsValue ds) = (List.replicate 16 false ++ digitsToBits ds).drop (4 * ds.length) := by
  induction ds using List.reverseRecOn with
  | nil => decide
  | append_singleton ds d ih =>
    rw [← accWith_digitsValue, bits16_accWith, ih, List.drop_drop, digitsToBits_append, ← List.append_assoc,
      ← List.drop_append_of_le_length (by simp only [List.length_append, List.length_replicate, digitsToBits_length]; omega)]
    simp only [List.length_append, List.length_singleton, Nat.mul_add]
    rfl

theorem bits16_digitsValue_four {ds : List Digit} (hlen : ds.length = 4) : bits16 (digitsValue ds) = digitsToBits ds := by
  rw [bits16_digitsValue, hlen, List.drop_left' (by simp)]

/-- A partial word is zero-padded on the left (R59). -/
theorem bits16_digitsValue_partial {ds : List Digit} (hlen : ds.length ≤ 4) :
    bits16 (digitsValue ds) = List.replicate (16 - 4 * ds.length) false ++ digitsToBits ds := by
  rw [bits16_digitsValue, List.drop_append_of_le_length (by simp; omega), List.drop_replicate]

/-- A group's number has its first digit most significant (R51, R25). -/
theorem digitsValue_toNat {ds : List Digit} (hlen : ds.length ≤ 4) :
    (digitsValue ds).toNat = ds.foldl (fun v d => v * 16 + d.toNat) 0 := by
  induction ds using List.reverseRecOn with
  | nil => rfl
  | append_singleton ds d ih =>
    have hle : ds.length ≤ 3 := by simp only [List.length_append, List.length_singleton] at hlen; omega
    have hlt : (digitsValue ds).toNat < 16 ^ 3 :=
      (digitsValue_lt ds (by omega)).trans_le (Nat.pow_le_pow_right (by decide) hle)
    have hd : d.toNat < 16 := d.isLt
    have h16 : (16 : Word).toNat = 16 := rfl
    rw [List.foldl_append, List.foldl_cons, List.foldl_nil, ← ih (by omega), digitsValue_snoc, BitVec.toNat_add,
      BitVec.toNat_mul, digitWord_toNat, h16]
    omega

/-! ## The bit string `S` -/

theorem completeWords_bits (h : List Digit) :
    (completeWords h).flatMap bits16 = digitsToBits (h.take (4 * (h.length / 4))) := by
  induction h using List.reverseRecOn with
  | nil => rfl
  | append_singleton h d ih =>
    rw [completeWords_snoc, List.flatMap_append, ih, List.length_append, List.length_singleton]
    split
    next h3 =>
      rw [List.flatMap_singleton, bits16_digitsValue_four (by simp; omega), ← digitsToBits_append, ← List.append_assoc,
        List.take_append_drop, List.take_of_length_le (by simp; omega)]
    next h3 =>
      rw [show (h.length + 1) / 4 = h.length / 4 by omega, List.take_append_of_le_length (by omega), List.flatMap_nil,
        List.append_nil]

theorem partialDigits_length (h : List Digit) : (h.drop (4 * (h.length / 4))).length = h.length % 4 := by
  rw [List.length_drop]
  omega

/-- The bits of a string's digits, a last partial word zero-padded on the left (R51, R59). -/
theorem wordBits_eq (h : List Digit) :
    wordBits h = digitsToBits (h.take (4 * (h.length / 4))) ++
      if h.length % 4 = 0 then []
      else List.replicate (16 - 4 * (h.length % 4)) false ++ digitsToBits (h.drop (4 * (h.length / 4))) := by
  rw [wordBits, stringWords_eq, List.flatMap_append, completeWords_bits]
  split
  · rfl
  · rw [List.flatMap_singleton, bits16_digitsValue_partial (by rw [partialDigits_length]; omega), partialDigits_length]

/-- For whole words `S` is the bits of the digits (R52). -/
theorem wordBits_of_dvd {h : List Digit} (hh : 4 ∣ h.length) : wordBits h = digitsToBits h := by
  rw [wordBits_eq, if_pos (Nat.mod_eq_zero_of_dvd hh), List.append_nil, Nat.mul_div_cancel' hh, List.take_length]

theorem flipBitOrder_of_dvd {h : List Digit} (hh : 4 ∣ h.length) : flipBitOrder h = (digitsToBits h).reverse := by
  rw [flipBitOrder, wordBits_of_dvd hh]

/-- With a partial word: its digits reversed, its padding, and the whole words reversed (R59). -/
theorem flipBitOrder_of_partial {h : List Digit} (hk : h.length % 4 ≠ 0) :
    flipBitOrder h = (digitsToBits (h.drop (4 * (h.length / 4)))).reverse ++
      (List.replicate (16 - 4 * (h.length % 4)) false ++ flipBitOrder (h.take (4 * (h.length / 4)))) := by
  have hwhole : 4 ∣ (h.take (4 * (h.length / 4))).length := by rw [List.length_take]; omega
  rw [flipBitOrder_of_dvd hwhole, flipBitOrder, wordBits_eq, if_neg hk]
  simp

theorem flipBitOrder_length (h : List Digit) : (flipBitOrder h).length = 16 * wordCount h := by
  rw [flipBitOrder, List.length_reverse, wordBits, flatMap_bits16_length, stringWords, List.length_map, List.length_range]

/-- Inside word `j` bit `t` comes at place `t`, and the last word comes first (R51). -/
theorem flipBitOrder_getElem?_word (h : List Digit) {j t : Nat} (hj : j < wordCount h) (ht : t < 16) :
    (flipBitOrder h)[16 * (wordCount h - 1 - j) + t]? = some ((digitsValue (digitGroup h j)).getLsbD t) := by
  have hlen : (stringWords h).length = wordCount h := by simp [stringWords]
  have hblock := getElem?_reverse_flatMap_block bits16_length ht (fun w => bits16_reverse_getElem? w ht)
    (l := stringWords h) (q := wordCount h - 1 - j) (by omega)
  rwa [hlen, show wordCount h - 1 - (wordCount h - 1 - j) = j by omega, stringWords, List.getElem?_map,
    List.getElem?_range hj] at hblock

/-- Settles O42. -/
theorem flipPlacesEveryBit : Obligations.FlipPlacesEveryBit :=
  ⟨flipBitOrder_length, fun h _ _ hj ht => flipBitOrder_getElem?_word h hj ht, fun _ hlen => digitsValue_toNat hlen,
    rfl, by decide, by decide⟩

/-- Settles O43. -/
theorem digitBitsInverse : Obligations.DigitBitsInverse := by
  refine ⟨digitsToBits_length, fun h q t ht => digitsToBits_getElem? h q (by omega), bitsToDigits_digitsToBits,
    fun s hs => ?_, bitsDigit_toNat, fun h hh => wordBits_of_dvd hh⟩
  obtain ⟨h, rfl⟩ := exists_digitsToBits s hs
  exact ⟨h, bitsToDigits_digitsToBits h, by rw [digitsToBits_length]; omega, rfl⟩

/-- The digits of the result are whole words, so a second reversal gives back `S` (R57). -/
theorem exists_flip_twice (h : List Digit) :
    ∃ ds, bitsToDigits (flipBitOrder h) = some ds ∧ flipBitOrder ds = wordBits h := by
  have hlen := flipBitOrder_length h
  obtain ⟨ds, hds⟩ := exists_digitsToBits (flipBitOrder h) (by omega)
  have hwhole : 4 ∣ ds.length := by rw [← hds, digitsToBits_length] at hlen; omega
  exact ⟨ds, by rw [← hds, bitsToDigits_digitsToBits], by
    rw [flipBitOrder_of_dvd hwhole, hds, flipBitOrder, List.reverse_reverse]⟩

/-- Settles O44. -/
theorem flipRoundTrip : Obligations.FlipRoundTrip := by
  refine ⟨fun h hh => ?_, exists_flip_twice, by decide, by decide⟩
  obtain ⟨ds, hds, hflip⟩ := exists_flip_twice h
  rw [wordBits_of_dvd hh] at hflip
  exact ⟨ds, hds, hflip, by rw [hflip, bitsToDigits_digitsToBits]⟩

/-- The bits of a word are those of its four digits. -/
theorem digitsToBits_nibbles (w : Word) :
    digitsToBits [w.extractLsb' 12 4, w.extractLsb' 8 4, w.extractLsb' 4 4, w.extractLsb' 0 4] = bits16 w := by
  simp [digitsToBits, digitBits, bits16, List.range_succ]

/-- Settles O45. -/
theorem flipClosedForm : Obligations.FlipClosedForm := by
  refine ⟨fun h i hh hi => ?_, fun w i hi => ?_⟩
  · rw [flipBitOrder_of_dvd hh, digitsToBits_reverse_getElem? h hi]
  · rw [flipBitOrder_of_dvd (by simp), digitsToBits_nibbles, bits16_reverse_getElem? w hi]

/-- Settles O46: the partial word's digits, then its padding, then the whole words. -/
theorem flipPartialWord : Obligations.FlipPartialWord := by
  have hbits (h : List Digit) : (digitsToBits (h.drop (4 * (h.length / 4)))).reverse.length = 4 * (h.length % 4) := by
    rw [List.length_reverse, digitsToBits_length, partialDigits_length]
  refine ⟨fun h i hi => ?_, fun h i hk hlo hhi => ?_, fun h hk => ?_, by decide, by decide, by decide⟩
  · rw [← digitsToBits_reverse_getElem? h (by omega), flipBitOrder_of_partial (by omega),
      digitsToBits_reverse_split h (4 * (h.length / 4)), List.getElem?_append_left (by rwa [hbits]),
      List.getElem?_append_left (by rwa [hbits])]
  · rw [flipBitOrder_of_partial hk, List.getElem?_append_right (by rwa [hbits]), hbits,
      List.getElem?_append_left (by rw [List.length_replicate]; omega), List.getElem?_replicate_of_lt (by omega)]
  · have hword : 4 * (h.length % 4) + (16 - 4 * (h.length % 4)) = 16 := by omega
    rw [flipBitOrder_of_partial hk, ← List.append_assoc,
      List.drop_left' (by rw [List.length_append, hbits, List.length_replicate, hword])]

end Sys2Proof.Machine
end

section
/-! PROOFS. The bit-reversal unit's commands (41_bitrev.md R53 to R55), and that they realise `flip_bit_order` (R56). -/

namespace Sys2Proof.Machine

/-! ## The three commands -/

/-- Settles O15. -/
theorem rvClearResult : Obligations.RvClearResult :=
  ⟨fun w => decodeInvertsEncode w .rvClear, fun s => ⟨fun h => exec_of_none .rvClear h, exec_refused s⟩⟩

theorem rvDigitEffect_of_overflows {capacity : Capacity} {b : Block} (d : Digit) (ho : overflows capacity b = true) :
    rvDigitEffect capacity d b = (b.setFault (some .rvOverflow), .err .rvOverflow) :=
  if_pos ho

/-- The fourth digit needs no new word, so it cannot overflow (R54). -/
theorem rvDigitEffect_fourth (capacity : Capacity) {b : Block} (d : Digit) (h3 : b.rvN = 3) :
    rvDigitEffect capacity d b = (b.setBuffer (b.rvWords ++ [accWith b.rvAcc d]) 0 0, .ack) := by
  simp [rvDigitEffect, overflows, h3]

theorem rvDigitEffect_extend {capacity : Capacity} {b : Block} (d : Digit) (ho : ¬ overflows capacity b = true)
    (h3 : b.rvN ≠ 3) : rvDigitEffect capacity d b = (b.setBuffer b.rvWords (accWith b.rvAcc d) (b.rvN + 1), .ack) :=
  (if_neg ho).trans (if_neg h3)

/-- Settles O16. -/
theorem rvDigitResult : Obligations.RvDigitResult := by
  refine ⟨fun w d => decodeInvertsEncode w (.rvDigit d), fun s d =>
    ⟨fun hnone hfull => ?_, fun hnone h3 => ?_, fun n' hnone hn' hroom => ?_, exec_refused s⟩⟩ <;>
    rw [exec_of_none _ hnone, commandEffect]
  · rw [rvDigitEffect_of_overflows d ((overflows_iff _ _).mpr hfull)]
    rfl
  · rw [rvDigitEffect_fourth s.capacity d h3]
    rfl
  · have h3 : s.block.rvN ≠ 3 := fun h3 => by
      rw [h3] at hn'
      exact absurd n'.isLt (by omega)
    rw [rvDigitEffect_extend d (mt (overflows_iff _ _).mp hroom) h3, Fin.ext (hn'.trans (rvN_succ_val h3).symm)]
    rfl

/-- Settles O17. -/
theorem rvReadResult : Obligations.RvReadResult :=
  ⟨fun w => decodeInvertsEncode w .rvRead, fun s =>
    ⟨fun h => ⟨s.block.bitString.reverse, exec_of_none .rvRead h, rfl,
      by rw [List.length_reverse, bitString_length]; rfl⟩, exec_refused s⟩⟩

/-! ## Runs of a faulted block, and of the digits -/

/-- A faulted block refuses every word of a program and stays as it is (R62). -/
theorem runProgram_of_fault (capacity : Capacity) {b : Block} {c : FaultCause} (hf : b.fault = some c) (p : List Instr) :
    runProgram capacity b ((programWords p).map .command) = ⟨b, List.replicate p.length (.err c)⟩ := by
  induction p with
  | nil => rfl
  | cons i p ih =>
    rw [programWords, List.map_cons, List.map_cons, ← programWords, runProgram_cons, eventOutcome, commandStep_encode,
      gated_of_fault _ hf, ih]
    rfl

/-- A digit that does not overflow is answered `ack` and touches nothing outside the unit (R54). -/
theorem rvDigitEffect_of_room {capacity : Capacity} {b : Block} (d : Digit) (hov : ¬ overflows capacity b = true) :
    (rvDigitEffect capacity d b).2 = .ack ∧ (rvDigitEffect capacity d b).1.fault = b.fault ∧
      (rvDigitEffect capacity d b).1.crc = b.crc := by
  by_cases h3 : b.rvN = 3
  · rw [rvDigitEffect_fourth capacity d h3]; exact ⟨rfl, rfl, rfl⟩
  · rw [rvDigitEffect_extend d hov h3]; exact ⟨rfl, rfl, rfl⟩

/-- Digits that fit beside the string held join it, each answered `ack` (R56). -/
theorem runProgram_digits_of_room {capacity : Capacity} {b : Block} {h ds : List Digit} (hnone : b.fault = none)
    (hh : HoldsString b h) (hroom : hasRoom capacity (wordCount (h ++ ds)) = true) :
    ∃ b', HoldsString b' (h ++ ds) ∧ b'.crc = b.crc ∧ b'.fault = none ∧
      runProgram capacity b ((programWords (ds.map .rvDigit)).map .command) =
        ⟨b', List.replicate ds.length .ack⟩ := by
  induction ds generalizing b h with
  | nil => exact ⟨b, by rwa [List.append_nil], rfl, hnone, rfl⟩
  | cons d ds ih =>
    rw [← List.singleton_append, ← List.append_assoc] at hroom ⊢
    have hov := overflows_of_room hh d (hasRoom_of_length_le hroom (by simp))
    obtain ⟨hack, hfault, hcrc⟩ := rvDigitEffect_of_room d (Bool.eq_false_iff.mp hov)
    have hnone' := hfault.trans hnone
    obtain ⟨b', hh', hcrc', hf', hrun⟩ := ih hnone' (holdsString_rvDigit hh capacity d hnone') hroom
    refine ⟨b', hh', hcrc'.trans hcrc, hf', ?_⟩
    rw [List.singleton_append, List.map_cons, runProgram_programWords_cons _ hnone, commandEffect, hrun, hack]
    rfl

/-! ## The digit too many -/

/-- Where the string held has room and one digit more has none, that digit overflows (R54). -/
theorem rvDigitEffect_of_no_room {capacity : Capacity} {b : Block} {h : List Digit} (hh : HoldsString b h) {d : Digit}
    (hroom : hasRoom capacity (wordCount h) = true) (hfull : hasRoom capacity (wordCount (h ++ [d])) = false) :
    rvDigitEffect capacity d b = (b.setFault (some .rvOverflow), .err .rvOverflow) := by
  obtain ⟨hwords, hcount, -⟩ := hh
  have hov : overflows capacity b = true := by
    cases capacity with
    | unbounded => cases hfull
    | words n hn =>
      rw [← Bool.not_eq_true, hasRoom_words_iff, wordCount, List.length_append, List.length_singleton] at hfull
      rw [hasRoom_words_iff, wordCount] at hroom
      refine (overflows_iff _ _).mpr ⟨Fin.ext (by rw [hcount, Fin.val_zero]; omega), n, hn, rfl, ?_⟩
      rw [hwords, completeWords, List.length_map, List.length_range]
      omega
  exact rvDigitEffect_of_overflows d hov

/-- Without `RV_CLEAR` a program adds its digits to the string held. -/
theorem stringAfter_of_ne_rvClear {i : Instr} (hi : i ≠ .rvClear) (h : List Digit) :
    stringAfter h (.command (encode i)) = h ++ digitsOf [i] := by
  cases i <;> simp only [stringAfter, decode_encode, digitsOf, List.append_nil]
  case rvClear => exact absurd rfl hi

theorem digitsOf_singleton_cases (i : Instr) : (∃ d, i = .rvDigit d) ∨ digitsOf [i] = [] := by
  cases i with
  | rvDigit d => exact .inl ⟨d, rfl⟩
  | crcInit | crcByte | crcRead | rvClear | rvRead => exact .inr rfl

/-- A program without `RV_CLEAR`, from a string that has room: it adds its digits and takes no fault when they fit, and
otherwise takes `RV_OVERFLOW` (R56). -/
theorem runProgram_of_no_rvClear {capacity : Capacity} {b : Block} {h : List Digit} {p : List Instr}
    (hnone : b.fault = none) (hh : HoldsString b h) (hroom : hasRoom capacity (wordCount h) = true) (hp : .rvClear ∉ p) :
    if hasRoom capacity (wordCount (h ++ digitsOf p)) = true then
      (runProgram capacity b ((programWords p).map .command)).final.fault = none ∧
        HoldsString (runProgram capacity b ((programWords p).map .command)).final (h ++ digitsOf p)
    else (runProgram capacity b ((programWords p).map .command)).final.fault = some .rvOverflow := by
  induction p generalizing b h with
  | nil => simpa [digitsOf, hroom] using ⟨hnone, hh⟩
  | cons i p ih =>
    obtain ⟨hi, hp'⟩ := not_or.mp (List.mem_cons.not.mp hp)
    rw [digitsOf_cons, ← List.append_assoc, runProgram_programWords_cons _ hnone]
    cases hfits : hasRoom capacity (wordCount (h ++ digitsOf [i])) with
    | true =>
      have hnone' : (commandEffect capacity i b).1.fault = none :=
        commandEffect_fault_of_room hnone fun d hd => overflows_of_room hh d (by rwa [hd] at hfits)
      have hh' := holdsString_commandEffect hh capacity (decode_encode i) hnone'
      rw [stringAfter_of_ne_rvClear (Ne.symm hi)] at hh'
      exact ih hnone' hh' hfits hp'
    | false =>
      have hlater : ¬ hasRoom capacity (wordCount (h ++ digitsOf [i] ++ digitsOf p)) = true := fun hall => by
        rw [hasRoom_of_length_le hall (by simp)] at hfits
        cases hfits
      rw [if_neg hlater]
      obtain ⟨d, rfl⟩ | hnil := digitsOf_singleton_cases i
      · rw [commandEffect, rvDigitEffect_of_no_room hh hroom hfits, runProgram_of_fault _ rfl]
        rfl
      · rw [hnil, List.append_nil, hroom] at hfits
        cases hfits

/-! ## A program that ends in `RV_READ` -/

/-- A last command that never writes the block adds its answer and nothing else (R29). -/
theorem runProgram_snoc_of_keeps {capacity : Capacity} {i : Instr} (hkeep : ∀ b, (commandEffect capacity i b).1 = b)
    (b : Block) (p : List Instr) :
    runProgram capacity b ((programWords (p ++ [i])).map .command) =
      ⟨(runProgram capacity b ((programWords p).map .command)).final,
        (runProgram capacity b ((programWords p).map .command)).responses ++
          [(gated (commandEffect capacity i) (runProgram capacity b ((programWords p).map .command)).final).2]⟩ := by
  rw [runProgram_programWords_append]
  generalize runProgram capacity b ((programWords p).map .command) = o
  rw [show (programWords [i]).map HostEvent.command = [.command (encode i)] from rfl, runProgram_cons, eventOutcome,
    commandStep_encode]
  exact congrArg (RunOutcome.mk · _) (gated_block_of_keeps hkeep o.final)

/-- `RV_READ` keeps the block (R55). -/
theorem runProgram_snoc_rvRead (capacity : Capacity) (b : Block) (p : List Instr) :
    runProgram capacity b ((programWords (p ++ [.rvRead])).map .command) =
      ⟨(runProgram capacity b ((programWords p).map .command)).final,
        (runProgram capacity b ((programWords p).map .command)).responses ++
          [(gated rvReadEffect (runProgram capacity b ((programWords p).map .command)).final).2]⟩ :=
  runProgram_snoc_of_keeps (i := .rvRead) (fun _ => rfl) b p

theorem gated_rvRead_of_holdsString {b : Block} {h : List Digit} (hnone : b.fault = none) (hh : HoldsString b h) :
    gated rvReadEffect b = (b, .bitseq (flipBitOrder h)) := by
  rw [gated_of_none _ hnone, rvReadEffect, bitString_of_holdsString hh]
  rfl

/-- From a new string, a program without `RV_CLEAR` reads the reversal of its digits when their words fit, and
`err(RV_OVERFLOW)` otherwise, whatever was answered before (R56). -/
theorem runProgram_snoc_rvRead_of_new {capacity : Capacity} {b : Block} {p : List Instr} (hnone : b.fault = none)
    (hb : HoldsString b []) (hp : .rvClear ∉ p) (rs : List Response) :
    let o := runProgram capacity b ((programWords (p ++ [.rvRead])).map .command)
    if hasRoom capacity (wordCount (digitsOf p)) = true then
      o.final.fault = none ∧ (rs ++ o.responses).getLast? = some (.bitseq (flipBitOrder (digitsOf p)))
    else o.final.fault = some .rvOverflow ∧ (rs ++ o.responses).getLast? = some (.err .rvOverflow) := by
  have hrun := runProgram_of_no_rvClear hnone hb (hasRoom_zero capacity) hp
  rw [List.nil_append] at hrun
  simp only [runProgram_snoc_rvRead, ← List.append_assoc, List.getLast?_concat]
  split at hrun
  next hroom =>
    obtain ⟨hf, hh⟩ := hrun
    rw [if_pos hroom, gated_rvRead_of_holdsString hf hh]
    exact ⟨hf, rfl⟩
  next hroom =>
    rw [if_neg hroom, gated_of_fault _ hrun]
    exact ⟨hrun, rfl⟩

theorem holdsString_cleared (b : Block) : HoldsString (b.setBuffer [] 0 0) [] :=
  holdsString_nil_of_empty rfl rfl rfl

/-- `RV_CLEAR` behind the gate starts a new string and touches nothing else (R53). -/
theorem runProgram_rvClear_cons (capacity : Capacity) {b : Block} (hnone : b.fault = none) (p : List Instr) :
    runProgram capacity b ((programWords (.rvClear :: p)).map .command) =
      ⟨(runProgram capacity (b.setBuffer [] 0 0) ((programWords p).map .command)).final,
        .ack :: (runProgram capacity (b.setBuffer [] 0 0) ((programWords p).map .command)).responses⟩ :=
  runProgram_programWords_cons capacity hnone .rvClear p

/-- `RV_CLEAR`, digits that fit, `RV_READ` (R56). -/
theorem runProgram_flipProgram_of_room {capacity : Capacity} {b : Block} {h : List Digit} (hnone : b.fault = none)
    (hroom : hasRoom capacity (wordCount h) = true) :
    ∃ b', HoldsString b' h ∧ b'.crc = b.crc ∧ b'.fault = none ∧
      runProgram capacity b ((programWords (flipProgram h)).map .command) =
        ⟨b', List.replicate (h.length + 1) .ack ++ [.bitseq (flipBitOrder h)]⟩ := by
  obtain ⟨b', hh, hcrc, hf, hrun⟩ :=
    runProgram_digits_of_room (b := b.setBuffer [] 0 0) (ds := h) hnone (holdsString_cleared b) hroom
  rw [List.nil_append] at hh
  refine ⟨b', hh, hcrc, hf, ?_⟩
  rw [flipProgram, runProgram_rvClear_cons _ hnone, runProgram_snoc_rvRead, hrun, gated_rvRead_of_holdsString hf hh]
  rfl

/-- `RV_CLEAR`, more digits than `n` words hold, `RV_READ`: the first `4*n` digits are accepted, and the next and every
command after it is answered `err(RV_OVERFLOW)` (R56). -/
theorem runProgram_flipProgram_overflow {n : Nat} {hn : 1 ≤ n} {b : Block} {h : List Digit} (hnone : b.fault = none)
    (hfull : n < wordCount h) :
    (runProgram (.words n hn) b ((programWords (flipProgram h)).map .command)).responses =
      List.replicate (4 * n + 1) .ack ++ List.replicate (h.length - 4 * n + 1) (.err .rvOverflow) := by
  have hlong : 4 * n < h.length := by rw [wordCount] at hfull; omega
  obtain ⟨ds, d, es, rfl, hds⟩ : ∃ ds d es, h = ds ++ d :: es ∧ ds.length = 4 * n :=
    ⟨h.take (4 * n), h[4 * n], h.drop (4 * n + 1), by rw [List.cons_getElem_drop_succ, List.take_append_drop],
      List.length_take_of_le hlong.le⟩
  have hfit : hasRoom (.words n hn) (wordCount ds) = true := by rw [hasRoom_words_iff, wordCount]; omega
  have hnofit : hasRoom (.words n hn) (wordCount (ds ++ [d])) = false := by
    rw [← Bool.not_eq_true, hasRoom_words_iff, wordCount, List.length_append, List.length_singleton]; omega
  obtain ⟨b', hh, -, hf, hrun⟩ :=
    runProgram_digits_of_room (b := b.setBuffer [] 0 0) (ds := ds) hnone (holdsString_cleared b) hfit
  have hover := rvDigitEffect_of_no_room hh hfit hnofit
  rw [flipProgram, runProgram_rvClear_cons _ hnone, List.map_append, List.append_assoc, runProgram_programWords_append,
    hrun, List.map_cons, List.cons_append, runProgram_programWords_cons _ hf, commandEffect, hover,
    runProgram_of_fault _ rfl]
  simp [hds, List.replicate_succ]

/-- Settles O35: the machine's run is the run of the program, which keeps track of the string up to the first digit that
does not fit. -/
theorem commandsRealiseFlipBitOrder : Obligations.CommandsRealiseFlipBitOrder := by
  have hflip (h : List Digit) : h.length + 2 = (flipProgram h).length := by simp [flipProgram]
  refine ⟨fun s h hnone hroom => ?_, fun s h n hn hnone hcap hfull => ?_, fun s p hnone hp => ?_, fun s p hreset hp => ?_⟩
  · obtain ⟨b, hh, hcrc, hf, hrun⟩ := runProgram_flipProgram_of_room hnone hroom
    exact ⟨b, hh, hcrc, hf, by rw [hflip, core_run_programWords, hrun]⟩
  · rw [hflip, core_run_programWords, hcap]
    exact ⟨_, rfl, congrArg (s.responses ++ ·) (runProgram_flipProgram_overflow hnone hfull)⟩
  · have hlen : p.length + 2 = (Instr.rvClear :: (p ++ [.rvRead])).length := by simp
    rw [hlen, core_run_programWords, runProgram_rvClear_cons _ hnone, List.append_cons s.responses]
    exact ⟨_, rfl, runProgram_snoc_rvRead_of_new (b := s.block.setBuffer [] 0 0) hnone (holdsString_cleared _) hp _⟩
  · have hlen : p.length + 1 = (p ++ [Instr.rvRead]).length := by simp
    rw [hlen, core_run_programWords, hreset]
    exact ⟨_, rfl, runProgram_snoc_rvRead_of_new rfl (holdsString_nil_of_empty rfl rfl rfl) hp _⟩

end Sys2Proof.Machine
end

section
/-! PROOFS. The two faults (60_exceptions.md): when each is taken (R60), what taking one does (R61), that it stays until a
reset (R62), the order of the tests (R63), and that no other command faults (R65). -/

namespace Sys2Proof.Machine

/-! ## A command that runs -/

/-- No command answers `err` but an `RV_DIGIT` that overflows (R65). -/
theorem commandEffect_isErr_of_room {capacity : Capacity} {i : Instr} (b : Block)
    (hroom : ∀ d, i = .rvDigit d → overflows capacity b = false) : isErr (commandEffect capacity i b).2 = false := by
  cases i with
  | rvDigit d =>
    obtain ⟨hack, -⟩ := rvDigitEffect_of_room d (Bool.eq_false_iff.mp (hroom d rfl))
    exact congrArg isErr hack
  | crcInit | crcByte | crcRead | rvClear | rvRead => rfl

/-- Settles O26: the overflow excepted, no command's effect takes a fault or answers `err`. -/
theorem dataNeverFaults : Obligations.DataNeverFaults := by
  intro i s hnone hfull
  have hroom : ∀ d, i = .rvDigit d → overflows s.capacity s.block = false := fun d hd =>
    Bool.eq_false_iff.mpr (mt (overflows_iff _ _).mp (hfull ⟨d, hd⟩))
  exact ⟨_, _, exec_of_none i hnone, commandEffect_fault_of_room hnone hroom, rfl, commandEffect_isErr_of_room _ hroom⟩

/-! ## The order of the tests -/

/-- The three conditions a word is tested for, in R63's order, and the word that meets none. -/
theorem commandStep_priority (capacity : Capacity) (b : Block) (w : Word) :
    (∃ c, b.fault = some c ∧ commandStep capacity b w = (b, .err c)) ∨
    (b.fault = none ∧ (∃ reason, decode w = .illegal reason) ∧
      commandStep capacity b w = (b.setFault (some .illegalCommand), .err .illegalCommand)) ∨
    (b.fault = none ∧ (∃ d, decode w = .command (.rvDigit d)) ∧ overflows capacity b = true ∧
      commandStep capacity b w = (b.setFault (some .rvOverflow), .err .rvOverflow)) ∨
    (b.fault = none ∧ (∃ i, decode w = .command i ∧ ((∃ d, i = .rvDigit d) → overflows capacity b = false)) ∧
      (commandStep capacity b w).1.fault = none ∧ isErr (commandStep capacity b w).2 = false) := by
  obtain hrefused | ⟨hnone, i, hd, hs⟩ | hillegal := commandStep_cases capacity b w
  · exact .inl hrefused
  · by_cases hover : (∃ d, i = .rvDigit d) ∧ overflows capacity b = true
    · obtain ⟨⟨d, rfl⟩, ho⟩ := hover
      exact .inr (.inr (.inl ⟨hnone, ⟨d, hd⟩, ho, hs.trans (rvDigitEffect_of_overflows d ho)⟩))
    · have hroom : (∃ d, i = .rvDigit d) → overflows capacity b = false := fun hi =>
        Bool.eq_false_iff.mpr fun ho => hover ⟨hi, ho⟩
      rw [hs]
      exact .inr (.inr (.inr ⟨hnone, ⟨i, hd, hroom⟩, commandEffect_fault_of_room hnone fun d hi => hroom ⟨d, hi⟩,
        commandEffect_isErr_of_room b fun d hi => hroom ⟨d, hi⟩⟩))
  · exact .inr (.inl hillegal)

/-- Settles O25. -/
theorem faultPriority : Obligations.FaultPriority := by
  refine ⟨fun s w rest hp => ⟨_, _, step_of_word hp, rfl, ?_⟩, fun s w rest hp => ?_⟩
  · obtain ⟨c, hf, hs⟩ | ⟨hnone, hd, hs⟩ | ⟨hnone, hd, ho, hs⟩ | ⟨hnone, hd, -, herr⟩ :=
      commandStep_priority s.capacity s.block w
    · exact .inl ⟨c, hf, congrArg (·.2) hs⟩
    · exact .inr (.inl ⟨hnone, hd, congrArg (·.2) hs⟩)
    · exact .inr (.inr (.inl ⟨hnone, hd, ho, congrArg (·.2) hs⟩))
    · exact .inr (.inr (.inr ⟨hnone, hd, herr⟩))
  · rw [step_of_event hp, eventOutcome, List.append_nil]

/-! ## Taking a fault -/

/-- A word that takes a fault writes its code, answers it, and does nothing else (R61). -/
theorem commandStep_of_fault_taken {capacity : Capacity} {b : Block} {w : Word} {c : FaultCause} (hnone : b.fault = none)
    (hc : (commandStep capacity b w).1.fault = some c) : commandStep capacity b w = (b.setFault (some c), .err c) := by
  obtain ⟨c', hf, -⟩ | ⟨-, -, hs⟩ | ⟨-, -, -, hs⟩ | ⟨-, -, hran, -⟩ := commandStep_priority capacity b w
  · cases hnone.symm.trans hf
  · rw [hs] at hc ⊢
    cases hc
    rfl
  · rw [hs] at hc ⊢
    cases hc
    rfl
  · cases hran.symm.trans hc

/-- A word takes ILLEGAL_COMMAND exactly when it is no legal command (R60). -/
theorem commandStep_illegalCommand_iff {capacity : Capacity} {b : Block} {w : Word} (hnone : b.fault = none) :
    (commandStep capacity b w).1.fault = some .illegalCommand ↔ ∃ reason, decode w = .illegal reason := by
  obtain ⟨c, hf, -⟩ | ⟨-, hd, hs⟩ | ⟨-, ⟨d, hd⟩, -, hs⟩ | ⟨-, ⟨i, hd, -⟩, hran, -⟩ := commandStep_priority capacity b w
  · cases hnone.symm.trans hf
  · simp [hs, hd]
  · simp [hs, hd]
  · simp [hran, hd]

/-- A word takes RV_OVERFLOW exactly when it is an `RV_DIGIT` that overflows (R60). -/
theorem commandStep_rvOverflow_iff {capacity : Capacity} {b : Block} {w : Word} (hnone : b.fault = none) :
    (commandStep capacity b w).1.fault = some .rvOverflow ↔
      (∃ d, decode w = .command (.rvDigit d)) ∧ overflows capacity b = true := by
  obtain ⟨c, hf, -⟩ | ⟨-, ⟨reason, hd⟩, hs⟩ | ⟨-, hd, ho, hs⟩ | ⟨-, ⟨i, hd, hroom⟩, hran, -⟩ :=
    commandStep_priority capacity b w
  · cases hnone.symm.trans hf
  · simp [hs, hd]
  · simp [hs, hd, ho]
  · simpa [hran, hd] using hroom

theorem step_of_nil {s : State} (hp : s.pending = []) : step s = .next s := by
  simp only [step, State.takeEvent_nil hp, State.idle]

/-- A step takes a fault only by a word presented alone: an idle step keeps `fault` and a reset clears it (R68, R70). -/
theorem step_takes_fault_iff {s t : State} (hnone : s.block.fault = none) (hstep : step s = .next t) (c : FaultCause) :
    t.block.fault = some c ↔
      ∃ w rest, s.pending = .command w :: rest ∧ (commandStep s.capacity s.block w).1.fault = some c := by
  cases hp : s.pending with
  | nil =>
    cases (step_of_nil hp).symm.trans hstep
    simp [hnone]
  | cons e rest =>
    cases (step_of_event hp).symm.trans hstep
    cases e with
    | command w => simp [eventOutcome]
    | reset => simp [eventOutcome, Block.reset]
    | resetWithCommand w => simp [eventOutcome, Block.reset]

/-- Settles O22. -/
theorem faultsHaveTheirTwoCauses : Obligations.FaultsHaveTheirTwoCauses := by
  refine ⟨rfl, rfl, rfl, fun s t hnone hstep => ⟨?_, ?_⟩⟩
  · simp only [step_takes_fault_iff hnone hstep, commandStep_illegalCommand_iff hnone, exists_and_left]
  · simp only [step_takes_fault_iff hnone hstep, commandStep_rvOverflow_iff hnone, overflows_iff, exists_and_left,
      ← and_assoc, exists_and_right]

/-- Settles O23. -/
theorem faultEntryIsPrecise : Obligations.FaultEntryIsPrecise := by
  intro s t c hnone hstep hc
  obtain ⟨w, rest, hp, htaken⟩ := (step_takes_fault_iff hnone hstep c).mp hc
  cases (step_of_word hp).symm.trans hstep
  rw [commandStep_of_fault_taken hnone htaken, hp]
  exact ⟨rfl, rfl, rfl, rfl⟩

/-! ## After a fault -/

theorem commandStep_of_fault (capacity : Capacity) {b : Block} {c : FaultCause} (hf : b.fault = some c) (w : Word) :
    commandStep capacity b w = (b, .err c) :=
  gated_of_fault _ hf

/-- Settles O24: the gate refuses every word, and of the other events an idle step keeps the block and a reset resets it. -/
theorem faultIsStickyUntilReset : Obligations.FaultIsStickyUntilReset := by
  refine ⟨fun s w rest c hf hp => ?_, fun s t c hf hstep => ?_⟩
  · rw [step_of_word hp, commandStep_of_fault _ hf]
    rfl
  · cases hp : s.pending with
    | nil =>
      cases (step_of_nil hp).symm.trans hstep
      exact .inl rfl
    | cons e rest =>
      cases (step_of_event hp).symm.trans hstep
      cases e with
      | command w => exact .inl (congrArg (·.1) (commandStep_of_fault s.capacity hf w))
      | reset => exact .inr ⟨rfl, List.append_nil _, rest, .inl rfl⟩
      | resetWithCommand w => exact .inr ⟨rfl, List.append_nil _, rest, .inr ⟨w, rfl⟩⟩

end Sys2Proof.Machine
end

section
/-! PROOFS. Reset, and the end of a run (70_reset_and_hazards.md): what a reset sets (R70), what the units hold and answer after
it (R71), and the outcome of a run whose last event is a word (R77). -/

namespace Sys2Proof.Machine

/-! ## A run, and its last word -/

/-- The step function's two results agree on a fault: a word leaves one exactly when it is answered `err` (R61, R62). -/
theorem commandStep_fault_iff_isErr (capacity : Capacity) (b : Block) (w : Word) :
    (commandStep capacity b w).1.fault ≠ none ↔ isErr (commandStep capacity b w).2 = true := by
  obtain ⟨c, hf, hs⟩ | ⟨-, -, hs⟩ | ⟨-, -, -, hs⟩ | ⟨-, -, hran, herr⟩ := commandStep_priority capacity b w
  · simp [hs, hf, isErr]
  · simp [hs, isErr]
  · simp [hs, isErr]
  · simp [hran, herr]

theorem goneWrong_iff (o : RunOutcome) :
    goneWrong o = true ↔ o.final.fault ≠ none ∨ ∃ r ∈ o.responses, isErr r = true := by
  rw [goneWrong, Bool.or_eq_true, Option.isSome_iff_ne_none, List.any_eq_true]

/-- A last word is one step of the step function from where the run before it ended. -/
theorem runProgram_snoc_command (capacity : Capacity) (b : Block) (es : List HostEvent) (w : Word) :
    runProgram capacity b (es ++ [.command w]) =
      ⟨(commandStep capacity (runProgram capacity b es).final w).1,
        (runProgram capacity b es).responses ++ [(commandStep capacity (runProgram capacity b es).final w).2]⟩ :=
  runProgram_append capacity b es [.command w]

/-- The answer to a word stands behind the answers to the words executed before it (R77). -/
theorem runProgram_response_of_word (capacity : Capacity) (b : Block) (before after : List HostEvent) (w : Word) :
    (runProgram capacity b (before ++ .command w :: after)).responses[(wordsOf before).length]? =
      some (commandStep capacity (runProgram capacity b before).final w).2 := by
  rw [runProgram_append, ← runProgram_responses_length capacity b before, List.getElem?_append_right le_rfl, Nat.sub_self]
  rfl

/-- Where the last event is a word, a fault that stands at the end was answered: by that word's own `err` (R77). -/
theorem exists_isErr_of_fault_left {capacity : Capacity} {b : Block} {es : List HostEvent} {w : Word}
    (hf : (runProgram capacity b (es ++ [.command w])).final.fault ≠ none) :
    ∃ r ∈ (runProgram capacity b (es ++ [.command w])).responses, isErr r = true := by
  rw [runProgram_snoc_command] at hf ⊢
  exact ⟨_, List.mem_concat_self, (commandStep_fault_iff_isErr _ _ _).mp hf⟩

/-- Settles O49: the machine's run is the run of the program, and its last word answers any fault that stands at the end. -/
theorem runEndsAtTheLastWord : Obligations.RunEndsAtTheLastWord := by
  rintro s es w o rfl
  refine ⟨?_, runProgram_responses_length _ _ _, fun before after v hsplit => ?_, ?_, goneWrong_iff _, ?_⟩
  · rw [← show (es ++ [HostEvent.command w]).length = es.length + 1 from List.length_append]
    exact core_run_pending s (es ++ [.command w])
  · rw [hsplit]
    exact runProgram_response_of_word s.capacity s.block before after v
  · rw [runProgram_snoc_command]
  · rw [goneWrong_iff, or_iff_right_of_imp exists_isErr_of_fault_left]

/-! ## Reset -/

/-- A reset at the port, alone or with a word, writes the reset values and answers nothing (R70). -/
theorem step_of_reset {s : State} {e : HostEvent} {rest : List HostEvent} (hp : s.pending = e :: rest)
    (he : e = .reset ∨ ∃ w, e = .resetWithCommand w) :
    step s = .next ((s.setPending rest).setBlock Block.reset) := by
  obtain rfl | ⟨w, rfl⟩ := he
  all_goals
    rw [step_of_event hp, eventOutcome, List.append_nil]
    rfl

/-- Settles O9. -/
theorem resetSetsEveryComponent : Obligations.ResetSetsEveryComponent :=
  ⟨fun s rest e he => step_of_reset (s := { s with pending := e :: rest }) rfl he, rfl⟩

theorem holdsMessage_reset : HoldsMessage Block.reset [] := rfl

theorem holdsString_reset : HoldsString Block.reset [] := holdsString_nil_of_empty rfl rfl rfl

/-- Settles O32: the reads answer the two functions of the empty message and the empty string. -/
theorem readyAfterReset : Obligations.ReadyAfterReset := by
  obtain ⟨hcrcRead, hrvRead⟩ := readsAnswerTheFunctions
  exact ⟨holdsMessage_reset, holdsString_reset, hcrcRead State.reset [] rfl holdsMessage_reset,
    hrvRead State.reset [] rfl holdsString_reset⟩

end Sys2Proof.Machine
end

section
/-! PROOFS. The decoding of some words (30_encoding.md R34, R35), the idle step (60_exceptions.md R64, R68), and the outcome of
a run of any events (70_reset_and_hazards.md R77). -/

namespace Sys2Proof.Machine

/-- Settles O5: the eight legal words are their commands' encodings, and the other five run through the decoder's tests. -/
theorem decodedSampleWords : Obligations.DecodedSampleWords :=
  ⟨decode_encode .crcInit, decode_encode (.crcByte 0x00), decode_encode (.crcByte 0xFF), decode_encode (.crcByte 0x30),
    decode_encode .crcRead, decode_encode .rvClear, decode_encode (.rvDigit 0xF), decode_encode .rvRead, by decide⟩

/-- Settles O8. -/
theorem idleStepChangesNothing : Obligations.IdleStepChangesNothing :=
  fun _ hp => step_of_nil hp

/-! ## Runs of words -/

@[simp] theorem wordsOf_map_command (ws : List Word) : wordsOf (ws.map .command) = ws := by
  induction ws with
  | nil => rfl
  | cons w ws ih => rw [List.map_cons, wordsOf, ih]

/-- Without resets, response `i` is the step function's to word `i`, after the words before it (R77). -/
theorem runProgram_words_response (capacity : Capacity) (b : Block) {ws : List Word} {i : Nat} {w : Word}
    (hw : ws[i]? = some w) :
    (runProgram capacity b (ws.map .command)).responses[i]? =
      some (commandStep capacity (runProgram capacity b ((ws.take i).map .command)).final w).2 := by
  obtain ⟨hi, rfl⟩ := List.getElem?_eq_some_iff.mp hw
  have hsplit : ws.take i ++ ws[i] :: ws.drop (i + 1) = ws := by
    rw [List.cons_getElem_drop_succ, List.take_append_drop]
  have hresponse := runProgram_response_of_word capacity b ((ws.take i).map .command) ((ws.drop (i + 1)).map .command) ws[i]
  rwa [wordsOf_map_command, List.length_take_of_le hi.le, ← List.map_cons, ← List.map_append, hsplit] at hresponse

/-- Without resets, an `err` leaves its fault to the end: the word that is answered `err` leaves a fault, and every later word is
refused (R61, R62). -/
theorem runProgram_words_fault_of_isErr {capacity : Capacity} {b : Block} {ws : List Word}
    (h : ∃ r ∈ (runProgram capacity b (ws.map .command)).responses, isErr r = true) :
    (runProgram capacity b (ws.map .command)).final.fault ≠ none := by
  induction ws using List.reverseRecOn with
  | nil => simp at h
  | append_singleton ws w ih =>
    rw [List.map_append, List.map_singleton, runProgram_snoc_command] at h ⊢
    obtain ⟨r, hr, herr⟩ := h
    obtain hbefore | hlast := List.mem_append.mp hr
    · have hfault := ih ⟨r, hbefore, herr⟩
      obtain ⟨c, hc⟩ := Option.ne_none_iff_exists'.mp hfault
      rwa [commandStep_of_fault capacity hc w]
    · rw [List.mem_singleton.mp hlast] at herr
      exact (commandStep_fault_iff_isErr _ _ _).mpr herr

/-! ## Runs of any events -/

/-- A fault that stands at the end of a run was answered, unless the start had it and nothing was presented: the last event was
then no reset, which would have cleared it (R70, R77). -/
theorem exists_isErr_of_fault {capacity : Capacity} {b : Block} {es : List HostEvent} (hstart : b.fault = none ∨ es ≠ [])
    (hf : (runProgram capacity b es).final.fault ≠ none) :
    ∃ r ∈ (runProgram capacity b es).responses, isErr r = true := by
  obtain rfl | ⟨before, e, rfl⟩ := es.eq_nil_or_concat'
  · exact absurd (hstart.resolve_right (· rfl)) hf
  · cases e with
    | command w => exact exists_isErr_of_fault_left hf
    | reset | resetWithCommand w =>
      rw [runProgram_append] at hf
      exact absurd rfl hf

/-- Settles O36: a fault at the end was answered `err`, and without resets an `err` leaves its fault. -/
theorem everyRunEnds : Obligations.EveryRunEnds := by
  refine ⟨core_run_pending, fun capacity b ws => ⟨?_, fun i w hw => runProgram_words_response capacity b hw⟩,
    fun capacity b es hstart => ?_, fun capacity b ws hstart => ?_, fun capacity b => ?_⟩
  · rw [runProgram_responses_length, wordsOf_map_command]
  · rw [goneWrong_iff, or_iff_right_of_imp (exists_isErr_of_fault hstart)]
  · have hstart' : b.fault = none ∨ ws.map HostEvent.command ≠ [] := hstart.imp_right (mt List.map_eq_nil_iff.mp)
    exact ⟨exists_isErr_of_fault hstart', runProgram_words_fault_of_isErr⟩
  · simp [goneWrong_iff]

end Sys2Proof.Machine
end
